-- ==== Sys2Proof/Word.lean ====
section
/-! DEFINITION. The bit-vector widths of the hardware (00_scope.md R10, R12; 20_memory.md R61). Every value is
unsigned. -/

namespace Sys2Proof

/-- A sample, a threshold, a packed group, a buffer byte: 8 bits (R10 `SAMPLE_W`, `THR_W`). -/
abbrev Byte := BitVec 8

/-- A quantized code: 2 bits (R10 `CODE_W`). -/
abbrev Code := BitVec 2

/-- A command word, or the data of one host transaction: 32 bits (R10 `DW`, R90). -/
abbrev Word := BitVec 32

/-- A scanline length, an output length, a sample index: 16 bits (R94, R34, R35). -/
abbrev Len := BitVec 16

/-- A byte offset on the host port: 18 bits (R10 `AW`, R61). -/
abbrev PortAddr := BitVec 18

/-- The byte strobes of a host write: bit j enables data byte j (R61). -/
abbrev Strobe := BitVec 4

end Sys2Proof
end

