-- ==== Sys2Proof/Syntax.lean ====
section
/-! DEFINITION. The commands of the engine, one constructor per row of spec/opcode_table.json (30_encoding.md R90). -/

namespace Sys2Proof

/-- The four commands, operands as R91 to R94 give them. Each operand has exactly its field's width (R97), so no
`Instr` holds an operand out of range (D40). -/
inductive Instr where
  /-- SETT, format T (R91): load the threshold set. -/
  | sett (t1 t2 t3 : Byte)
  /-- SETCFG, format F (R92): load the gap policy and the ordering check. -/
  | setcfg (gap ordchk : Bool)
  /-- QUANT, format S (R93): quantize one sample. -/
  | quant (s : Byte)
  /-- PACK, format L (R94): pack the first `n` samples of IBUF. -/
  | pack (n : Len)
  deriving DecidableEq, Repr

end Sys2Proof
end

