-- ==== Sys2Proof/WellFormed.lean ====
section
/-! DEFINITION. The assembler's source form of a command and the range checks of 30_encoding.md R99. An `Instr`
needs no check of its own: its operands have their fields' widths. The check is on what is written before it is
encoded, where a number can be too large. -/

namespace Sys2Proof

/-- A command as the assembler reads it (R99): operands are numbers of any size. -/
inductive AsmCommand where
  | sett (t1 t2 t3 : Nat)
  | setcfg (gap ordchk : Nat)
  | quant (s : Nat)
  | pack (n : Nat)
  /-- `.word w`: the raw word, for illegal or reserved encodings. -/
  | word (w : Nat)
  deriving DecidableEq, Repr

/-- R99: "t1, t2, t3 and s must be in 0..255, gap and ordchk in 0..1, and n in 0..65535". A raw word has 32 bits (log 15). -/
def AsmCommand.wellFormed : AsmCommand → Bool
  | .sett t1 t2 t3 => decide (t1 ≤ 255) && decide (t2 ≤ 255) && decide (t3 ≤ 255)
  | .setcfg gap ordchk => decide (gap ≤ 1) && decide (ordchk ≤ 1)
  | .quant s => decide (s ≤ 255)
  | .pack n => decide (n ≤ 65535)
  | .word w => decide (w < 2 ^ 32)

end Sys2Proof
end

