-- ==== Sys2Proof/Decode.lean ====
section
/-! DEFINITION. The decoder of 30_encoding.md R95, total on every 32-bit word and rejecting by name; the encoder of
R90 and R99; the assembler of R99; the opcode table's words. -/

namespace Sys2Proof

/-- Why a word is ILLEGAL (R96). Both execute alike, as IllegalCommand (R208). -/
inductive Illegal where
  /-- OPC is 0x00 or 0x05 to 0xFF. -/
  | reservedOpcode
  /-- A legal opcode with a reserved operand bit set. -/
  | reservedOperandBit
  deriving DecidableEq, Repr

/-- The opcode field OPC, bits 31:24 (R90). -/
def opcodeOf (w : Word) : Byte := w.extractLsb' 24 8

/-- The name of the rejection of a word that no row of the table matches (R96). -/
def illegalReason (w : Word) : Illegal :=
  if 1 ≤ (opcodeOf w).toNat ∧ (opcodeOf w).toNat ≤ 4 then .reservedOperandBit else .reservedOpcode

/-- decode(cmd) of R95: the rows in the rule's order, each a mask and a match. -/
def decode (w : Word) : Except Illegal Instr :=
  if w &&& 0xFF000000#32 = 0x01000000#32 then
    .ok (.sett (w.extractLsb' 16 8) (w.extractLsb' 8 8) (w.extractLsb' 0 8))
  else if w &&& 0xFFFFFFFC#32 = 0x02000000#32 then .ok (.setcfg (w.getLsbD 0) (w.getLsbD 1))
  else if w &&& 0xFFFFFF00#32 = 0x03000000#32 then .ok (.quant (w.extractLsb' 0 8))
  else if w &&& 0xFFFF0000#32 = 0x04000000#32 then .ok (.pack (w.extractLsb' 0 16))
  else .error (illegalReason w)

/-- The word of a command, its fields side by side as the table of R90 lays them out. -/
def encode : Instr → Word
  | .sett t1 t2 t3 => 0x01#8 ++ t1 ++ t2 ++ t3
  | .setcfg gap ordchk => 0x02#8 ++ 0#22 ++ BitVec.ofBool ordchk ++ BitVec.ofBool gap
  | .quant s => 0x03#8 ++ 0#16 ++ s
  | .pack n => 0x04#8 ++ 0#8 ++ n

/-- The command a well-formed source line stands for; a raw word stands for none. -/
def AsmCommand.instr? : AsmCommand → Option Instr
  | .sett t1 t2 t3 => some (.sett (BitVec.ofNat 8 t1) (BitVec.ofNat 8 t2) (BitVec.ofNat 8 t3))
  | .setcfg gap ordchk => some (.setcfg (gap == 1) (ordchk == 1))
  | .quant s => some (.quant (BitVec.ofNat 8 s))
  | .pack n => some (.pack (BitVec.ofNat 16 n))
  | .word _ => none

/-- The raw word of a `.word` line, zero for the others. -/
def AsmCommand.rawWord : AsmCommand → Word
  | .word w => BitVec.ofNat 32 w
  | .sett _ _ _ | .setcfg _ _ | .quant _ | .pack _ => 0

/-- The assembler (R99): it refuses an operand that does not fit its field. -/
def assemble (c : AsmCommand) : Option Word :=
  if c.wellFormed then some ((c.instr?.map encode).getD c.rawWord) else none

/-- A word of spec/opcode_table.json: bits at and above `nbits` are zero. A command is one 32-bit word with bit 0 its
least significant bit (R12, R90), which is the table's own numbering. -/
def tableWord (nbits w : Nat) : Word := BitVec.ofNat 32 (w % 2 ^ nbits)

/-- What the decoder reads from a word of the opcode table. -/
def decodeTableWord (nbits w : Nat) : Option Instr := (decode (tableWord nbits w)).toOption

end Sys2Proof
end

