-- ==== Sys2Proof/Config.lean ====
section
/-! DEFINITION. What an implementation fixes and the spec leaves open, and the free values. Nothing here has a body,
so no proof can see a value of it. -/

namespace Sys2Proof

/-- W_MAX - 1, where W_MAX is the OPEN parameter 1 ≤ W_MAX ≤ 65535 of 00_scope.md R10 (log 1). -/
opaque Config.wMaxPred : Fin 65535

/-- W_MAX of this implementation (R10, R11, R23): some value in 1..65535 (log 1). -/
def Config.wMax : Len := BitVec.ofNat 16 (Config.wMaxPred.val + 1)

/-- The free draws in 0..255 (10_state.md R40, 42_packer.md R167): the byte of the k-th draw of a run, under no law
(log 2). -/
opaque Config.freeByte : Nat → Byte

end Sys2Proof
end

