-- ==== Sys2Proof/Machine/State.lean ====
section
/-! DEFINITION. The state of the hardware as plain data (10_state.md), the reasons a step can stop, and the state
after reset (R41). -/

namespace Sys2Proof.Machine

/-- STATUS.ERRCODE (60_exceptions.md R201). The codes 6 to 15 are never produced and have no constructor (log 11). -/
inductive ErrCode where
  | none
  | invalidSample
  | lengthError
  | orderError
  | illegalCommand
  | noThresholds
  deriving DecidableEq, Repr

/-- An error condition as `raise` takes it, with the information it records (R201, R202). -/
inductive Condition where
  | invalidSample (index : Len)
  | lengthError
  | orderError
  | illegalCommand
  | noThresholds
  deriving DecidableEq, Repr

/-- The two agents (70_reset_and_hazards.md R239). -/
inductive Agent where
  | host
  | engine
  deriving DecidableEq, Repr

/-- What the host can do to the machine (30_encoding.md R100, R101; 70_reset_and_hazards.md R243). -/
inductive HostOp where
  /-- `RD a`: HostRead(a). -/
  | read (a : PortAddr)
  /-- `WRB a, d, strb`: HostWrite(a, d, strb); `WR` has strobes 0b1111. -/
  | write (a : PortAddr) (d : Word) (strb : Strobe)
  /-- `WAIT`: read STATUS until its bit 0 is 0; one turn is one read. -/
  | wait
  /-- The reset input (R230). -/
  | reset
  deriving DecidableEq, Repr

/-- A buffer as (index, byte) pairs, indexes strictly rising. An index not listed has not been written since reset. -/
abbrev Memory := List Host.Cell

structure State where
  /-- CAPS[15:0] = W_MAX (R23): constant. -/
  wMax : Len
  /-- STATUS.BUSY (R27). -/
  busy : Bool
  /-- STATUS.ERRCODE (R26). -/
  errcode : ErrCode
  /-- STATUS.AERR (R28). -/
  aerr : Bool
  /-- STATUS.HAZ (R29). -/
  haz : Bool
  /-- STATUS.TVALID (R30). -/
  tvalid : Bool
  /-- CFG.GAP (R31): false is policy (a), true is policy (b). -/
  gap : Bool
  /-- CFG.ORDCHK (R31). -/
  ordchk : Bool
  /-- THR.T1 (R32). -/
  t1 : Byte
  /-- THR.T2 (R32). -/
  t2 : Byte
  /-- THR.T3 (R32). -/
  t3 : Byte
  /-- QCODE[1:0] (R33). -/
  qcode : Code
  /-- OLEN[15:0] (R34). -/
  olen : Len
  /-- ERRIDX[15:0] (R35). -/
  erridx : Len
  /-- PEND, the command latch (R37). -/
  pend : Word
  /-- IBUF (R38). -/
  ibuf : Memory
  /-- OBUF (R39). -/
  obuf : Memory
  /-- The model's own: how many free bytes have been drawn (log 2). -/
  draws : Nat
  /-- The model's own: the host transactions still to come, oldest first (log 6). -/
  hostOps : List HostOp
  /-- The model's own: which agent is preferred at the next steps (log 5). -/
  turns : List Agent
  /-- The model's own: what HostRead returned, newest first, with the offset read (log 7). -/
  reads : List (PortAddr × Word)
  deriving DecidableEq, Repr

/-- Reasons to stop with a fault. There are none: every host transaction completes and never signals an error
(20_memory.md R61), and every command ends in finish or raise (70_reset_and_hazards.md R240); log 13. -/
inductive Fault where
  deriving DecidableEq, Repr

/-- Reasons to give no meaning. -/
inductive Refusal where
  /-- Raised by a refused arm of `exec`, for a command not modelled yet: safe. No arm is refused now. -/
  | notModelled (mnemonic : String)
  deriving DecidableEq, Repr

/-- The state after reset of an implementation with capacity `wMax`, every field at the value of R41. PEND is
unspecified there and is 0 here (log 3); nothing of IBUF and OBUF has been written (R40). -/
def State.resetFor (wMax : Len) : State where
  wMax := wMax
  busy := false
  errcode := .none
  aerr := false
  haz := false
  tvalid := false
  gap := false
  ordchk := false
  t1 := 0
  t2 := 0
  t3 := 0
  qcode := 0
  olen := 0
  erridx := 0
  pend := 0
  ibuf := []
  obuf := []
  draws := 0
  hostOps := []
  turns := []
  reads := []

/-- The machine right after reset (R41, R230), with this implementation's W_MAX. -/
def State.reset : State := State.resetFor Config.wMax

end Sys2Proof.Machine
end

