-- ==== Sys2Proof/Machine/Ops.lean ====
section
/-! DEFINITION. The named operations over the buffers and the registers that the meanings are built from. The entry
into an error is ONE operation, `State.raiseError` (60_exceptions.md R202); the hardware has no return from one
(R213), and `State.finish` is the other end of a command. -/

namespace Sys2Proof.Machine

/-- What a buffer index that is not listed holds: no value of its own (10_state.md R40; log 2). -/
def Memory.unlisted : Option Byte := none

/-- The byte at an index, or `none` if nothing has written it since reset (R40). -/
def Memory.get (m : Memory) (i : Nat) : Option Byte :=
  match m with
  | [] => Memory.unlisted
  | (k, b) :: rest => if k = i then some b else Memory.get rest i

/-- MemWrite(BUF, i, 1, v) of 00_scope.md R13, keeping the indexes rising. -/
def Memory.set (m : Memory) (i : Nat) (v : Byte) : Memory :=
  match m with
  | [] => [(i, v)]
  | (k, b) :: rest =>
    if i < k then (i, v) :: (k, b) :: rest
    else if i = k then (i, v) :: rest
    else (k, b) :: Memory.set rest i v

/-- MemWrite of a run of bytes at `base`, `base + 1`, and so on. -/
def Memory.setRun (m : Memory) (base : Nat) : List Byte → Memory
  | [] => m
  | v :: vs => Memory.setRun (Memory.set m base v) (base + 1) vs

/-- The canonical form: indexes strictly rising. No listed byte is one an unlisted index would read as, since an
unlisted index holds no value (`Memory.unlisted`). -/
abbrev Memory.wf (m : Memory) : Prop := m.Pairwise (fun x y => x.1 < y.1)

/-- Every listed index is below `size`. -/
abbrev Memory.below (m : Memory) (size : Nat) : Prop := ∀ c ∈ m, c.1 < size

/-- The free bytes number `d` to `d + count - 1` (log 2). -/
def freeRun (d count : Nat) : List Byte := (List.range count).map (fun k => Config.freeByte (d + k))

/-- code(E) of 60_exceptions.md R201. -/
def Condition.code : Condition → ErrCode
  | .invalidSample _ => .invalidSample
  | .lengthError => .lengthError
  | .orderError => .orderError
  | .illegalCommand => .illegalCommand
  | .noThresholds => .noThresholds

/-- ERRIDX after `raise`: only InvalidSample writes it (R202, R203). -/
def Condition.erridx (c : Condition) (old : Len) : Len :=
  match c with
  | .invalidSample index => index
  | .lengthError => old
  | .orderError => old
  | .illegalCommand => old
  | .noThresholds => old

/-- `finish` of R202: the command ends with success. -/
def State.finish (s : State) : State := { s with errcode := .none, busy := false }

/-- `raise E(info)` of R202: the command ends with an error condition. -/
def State.raiseError (s : State) (c : Condition) : State :=
  { s with erridx := c.erridx s.erridx, errcode := c.code, aerr := true, busy := false }

/-- Acceptance of a command: PEND <- d, BUSY <- 1 (20_memory.md R66, R72). -/
def State.acceptCommand (s : State) (d : Word) : State := { s with pend := d, busy := true }

/-- A command accepted, with the engine moving next: what a load of one command from outside does (log 9). -/
def State.offerCommand (s : State) (d : Word) : State :=
  { s.acceptCommand d with turns := .engine :: s.turns }

/-- HAZ <- 1: a host hazard (R70). -/
def State.setHaz (s : State) : State := { s with haz := true }

/-- THR and TVALID as SETT writes them, in one update (40_configuration.md R122). -/
def State.loadThresholds (s : State) (t1 t2 t3 : Byte) : State :=
  { s with t1 := t1, t2 := t2, t3 := t3, tvalid := true }

/-- CFG as SETCFG writes it (R125). -/
def State.loadConfig (s : State) (gap ordchk : Bool) : State := { s with gap := gap, ordchk := ordchk }

/-- OBUF[0..] written with `bytes`, and the draw counter moved to `draws` (R165). -/
def State.storeLine (s : State) (bytes : List Byte) (draws : Nat) : State :=
  { s with obuf := Memory.setRun s.obuf 0 bytes, draws := draws }

/-- QCODE <- c (41_quantizer.md R145). -/
def State.setQcode (s : State) (c : Code) : State := { s with qcode := c }

/-- OLEN <- m (42_packer.md R165). -/
def State.setOlen (s : State) (m : Len) : State := { s with olen := m }

/-- IBUF as a host write leaves it (20_memory.md R68). -/
def State.setIbuf (s : State) (m : Memory) : State := { s with ibuf := m }

/-- AERR and HAZ as a W1C write leaves them: cleared where the bit is true (R67). -/
def State.clearSticky (s : State) (aerr haz : Bool) : State := { s with aerr := s.aerr && !aerr, haz := s.haz && !haz }

/-- The draw counter moved on (log 2). -/
def State.setDraws (s : State) (draws : Nat) : State := { s with draws := draws }

/-- The host transactions still to come (log 6). -/
def State.setHostOps (s : State) (ops : List HostOp) : State := { s with hostOps := ops }

/-- The reset event (70_reset_and_hazards.md R230): every piece of the hardware's state at the value of R41. W_MAX is
a constant of the implementation. The model's own fields go on, so that draws after the reset are fresh (log 8). -/
def State.resetEvent (s : State) : State :=
  { State.resetFor s.wMax with draws := s.draws, hostOps := s.hostOps, turns := s.turns, reads := s.reads }

/-- One turn of the schedule is used up (log 5). -/
def State.endTurn (s : State) : State := { s with turns := s.turns.tail }

/-- A value HostRead returned, handed to the host (log 7). -/
def State.logRead (s : State) (a : PortAddr) (d : Word) : State := { s with reads := (a, d) :: s.reads }

end Sys2Proof.Machine
end

