-- ==== Sys2Proof/Machine/Operands.lean ====
section
/-! DEFINITION. Buffer sizes and the ways a buffer byte is read: MemRead of one byte, of a run, of a lane of a host
word (00_scope.md R13; 10_state.md R38 to R40; 20_memory.md R71). Each reading answers the byte and the draw counter
afterwards. -/

namespace Sys2Proof.Machine

/-- ceil(n / 4) = (n + 3) >> 2 (R12, 42_packer.md R163). -/
def outLen (n : Nat) : Nat := (n + 3) / 4

/-- OB_MAX = (W_MAX + 3) >> 2 (R10, R39). -/
def State.obMax (s : State) : Nat := outLen s.wMax.toNat

/-- MemRead(BUF, i, 1): a byte nobody has written is a fresh draw (R40). -/
def readByte (m : Memory) (i draws : Nat) : Byte × Nat :=
  match Memory.get m i with
  | some b => (b, draws)
  | none => (Config.freeByte draws, draws + 1)

/-- MemRead of `count` bytes from index `i`, each read exactly once (R165). -/
def readRun (m : Memory) (i : Nat) : Nat → Nat → List Byte × Nat
  | 0, draws => ([], draws)
  | count + 1, draws =>
    let b := readByte m i draws
    let rest := readRun m (i + 1) count b.2
    (b.1 :: rest.1, rest.2)

/-- lane(BUF, size, x) of R71. -/
def lane (m : Memory) (size x draws : Nat) : Byte × Nat :=
  if x < size then readByte m x draws else (0, draws)

/-- The word of a window at buffer byte `b`: lane j is byte b + j, little-endian (R64, R71). -/
def windowWord (m : Memory) (size b draws : Nat) : Word × Nat :=
  let l0 := lane m size b draws
  let l1 := lane m size (b + 1) l0.2
  let l2 := lane m size (b + 2) l1.2
  let l3 := lane m size (b + 3) l2.2
  (l3.1 ++ l2.1 ++ l1.1 ++ l0.1, l3.2)

/-- Data byte j of a host word, `d[8j+7:8j]` (R61). -/
def dataByte (d : Word) (j : Nat) : Byte := d.extractLsb' (8 * j) 8

/-- One lane of a host write to a window: written if its strobe is set and it lies inside the buffer (R68, R72). -/
def writeLane (size b : Nat) (d : Word) (strb : Strobe) (j : Nat) (m : Memory) : Memory :=
  if strb.getLsbD j = true ∧ b + j < size then Memory.set m (b + j) (dataByte d j) else m

/-- The four lanes of a host write to a window (R72). -/
def writeWindow (size b : Nat) (d : Word) (strb : Strobe) (m : Memory) : Memory :=
  writeLane size b d strb 3 (writeLane size b d strb 2 (writeLane size b d strb 1 (writeLane size b d strb 0 m)))

/-- The ordering check of SETT (40_configuration.md R122, R123): unsigned, not strict. -/
abbrev Ordered (t1 t2 t3 : Byte) : Prop := t1 ≤ t2 ∧ t2 ≤ t3

end Sys2Proof.Machine
end

