-- ==== Sys2Proof/Machine/Configuration.lean ====
section
/-! DEFINITION. The configuration commands SETT and SETCFG (40_configuration.md). -/

namespace Sys2Proof.Machine

/-- SETT (R122): OrderError under ORDCHK for a triple that is not ordered, else THR and TVALID are written. -/
def execSett (t1 t2 t3 : Byte) (s : State) : Host.Outcome State Fault Refusal :=
  if s.ordchk = true ∧ ¬ Ordered t1 t2 t3 then .next (s.raiseError .orderError)
  else .next (s.loadThresholds t1 t2 t3).finish

/-- SETCFG (R125). -/
def execSetcfg (gap ordchk : Bool) (s : State) : Host.Outcome State Fault Refusal :=
  .next (s.loadConfig gap ordchk).finish

end Sys2Proof.Machine
end

