-- ==== Sys2Proof/Machine/Quantizer.lean ====
section
/-! DEFINITION. The quantizer_comparator QC, the gap policy, and the command QUANT (41_quantizer.md). -/

namespace Sys2Proof.Machine

/-- The output of QC (R140): a code or GAP. -/
inductive SampleClass where
  | code (c : Code)
  | gap
  deriving DecidableEq, Repr

/-- classify(s, t1, t2, t3) of R140: the branches in the source's order, the first match wins (90_conflicts.md C1). -/
def classify (x t1 t2 t3 : Byte) : SampleClass :=
  if x = 0 then .code 0
  else if t1 < x ∧ x ≤ t2 then .code 1
  else if t2 < x ∧ x ≤ t3 then .code 2
  else if t3 < x ∧ x ≤ 255 then .code 3
  else .gap

/-- code_of(s, i) of R142: the class of the sample `x` at index `i` under the gap policy CFG.GAP. -/
def codeOf (s : State) (x : Byte) (i : Nat) : Except Condition Code :=
  match classify x s.t1 s.t2 s.t3 with
  | .code c => .ok c
  | .gap => if s.gap then .ok 0 else .error (.invalidSample (BitVec.ofNat 16 i))

/-- QUANT (R145). -/
def execQuant (x : Byte) (s : State) : Host.Outcome State Fault Refusal :=
  if s.tvalid = false then .next (s.raiseError .noThresholds)
  else
    match codeOf s x 0 with
    | .ok c => .next (s.setQcode c).finish
    | .error e => .next (s.raiseError e)

end Sys2Proof.Machine
end

