-- ==== Sys2Proof/Machine/Packer.lean ====
section
/-! DEFINITION. The 4-to-1_packer P4 and the command PACK (42_packer.md). -/

namespace Sys2Proof.Machine

/-- pack4 of R160: the first code in the two highest bits. -/
def pack4 (c1 c2 c3 c4 : Code) : Byte :=
  (c1.setWidth 8 <<< 6) ||| (c2.setWidth 8 <<< 4) ||| (c3.setWidth 8 <<< 2) ||| c4.setWidth 8

/-- The code at position p (1 to 4) of a packed byte, `(B >> (8 - 2p)) & 0b11` (R162). -/
def unpackCode (b : Byte) (p : Nat) : Code := (b >>> (8 - 2 * p)).setWidth 2

/-- The codes of the samples `xs` at indexes i, i + 1, and so on. The first sample in index order that raises decides,
so an InvalidSample carries the lowest gap index (R165, R167). -/
def codesFrom (s : State) (i : Nat) : List Byte → Except Condition (List Code)
  | [] => .ok []
  | x :: xs =>
    match codeOf s x i with
    | .error e => .error e
    | .ok c =>
      match codesFrom s (i + 1) xs with
      | .error e => .error e
      | .ok cs => .ok (c :: cs)

/-- The code at an index of the scanline; an absent position takes code 0 (R163, 90_conflicts.md C4). -/
def codeAt (codes : List Code) (i : Nat) : Code := (codes[i]?).getD 0

/-- Group k packed: samples 4k to 4k + 3 (R163, R165). -/
def packedByte (codes : List Code) (k : Nat) : Byte :=
  pack4 (codeAt codes (4 * k)) (codeAt codes (4 * k + 1)) (codeAt codes (4 * k + 2)) (codeAt codes (4 * k + 3))

/-- The packed scanline: `m` bytes (R165). -/
def packedLine (codes : List Code) (m : Nat) : List Byte := (List.range m).map (packedByte codes)

/-- PACK (R165). After an InvalidSample OBUF[0..m-1] holds free bytes, one draw each (R167; log 4). -/
def execPack (n : Len) (s : State) : Host.Outcome State Fault Refusal :=
  if s.tvalid = false then .next (s.raiseError .noThresholds)
  else if s.wMax < n then .next (s.raiseError .lengthError)
  else
    let m := outLen n.toNat
    let line := readRun s.ibuf 0 n.toNat s.draws
    match codesFrom s 0 line.1 with
    | .error e => .next ((s.storeLine (freeRun line.2 m) (line.2 + m)).raiseError e)
    | .ok codes => .next ((s.storeLine (packedLine codes m) line.2).setOlen (BitVec.ofNat 16 m)).finish

end Sys2Proof.Machine
end

