-- ==== Sys2Proof/Machine/Dispatch.lean ====
section
/-! DEFINITION. One arm per command: the engine executes the command it decoded (70_reset_and_hazards.md R240). -/

namespace Sys2Proof.Machine

def exec (i : Instr) (s : State) : Host.Outcome State Fault Refusal :=
  match i with
  | .sett t1 t2 t3 => Sys2Proof.Machine.execSett t1 t2 t3 s
  | .setcfg gap ordchk => Sys2Proof.Machine.execSetcfg gap ordchk s
  | .quant x => Sys2Proof.Machine.execQuant x s
  | .pack n => Sys2Proof.Machine.execPack n s

end Sys2Proof.Machine
end

