-- ==== Sys2Proof/Machine/Flags.lean ====
section
/-! DEFINITION. The register words as the host reads them, every reserved bit 0 (10_state.md R22 to R36; 20_memory.md
R71), and the numbers of the error codes (60_exceptions.md R201). -/

namespace Sys2Proof.Machine

/-- The 4-bit code in STATUS.ERRCODE (R201). -/
def ErrCode.bits : ErrCode → BitVec 4
  | .none => 0
  | .invalidSample => 1
  | .lengthError => 2
  | .orderError => 3
  | .illegalCommand => 4
  | .noThresholds => 5

/-- CAPS (R23). -/
def State.capsWord (s : State) : Word := s.wMax.setWidth 32

/-- STATUS (R25): {TVALID, HAZ, AERR, ERRCODE, 0b000, BUSY}. -/
def State.statusWord (s : State) : Word :=
  (BitVec.ofBool s.tvalid ++ BitVec.ofBool s.haz ++ BitVec.ofBool s.aerr ++ s.errcode.bits ++ 0#3 ++
    BitVec.ofBool s.busy).setWidth 32

/-- CFG (R31): {ORDCHK, GAP}. -/
def State.cfgWord (s : State) : Word := (BitVec.ofBool s.ordchk ++ BitVec.ofBool s.gap).setWidth 32

/-- THR (R32): {T1, T2, T3}. -/
def State.thrWord (s : State) : Word := (s.t1 ++ s.t2 ++ s.t3).setWidth 32

/-- QCODE (R33). -/
def State.qcodeWord (s : State) : Word := s.qcode.setWidth 32

/-- OLEN (R34). -/
def State.olenWord (s : State) : Word := s.olen.setWidth 32

/-- ERRIDX (R35). -/
def State.erridxWord (s : State) : Word := s.erridx.setWidth 32

end Sys2Proof.Machine
end

