-- ==== Sys2Proof/Machine/HostPort.lean ====
section
/-! DEFINITION. The host port: the address map and the two transactions (20_memory.md R62, R71, R72). -/

namespace Sys2Proof.Machine

/-- The regions of the address map (R62); a window carries the buffer index of the word's first byte. -/
inductive Region where
  | caps
  | cmd
  | status
  | cfg
  | thr
  | qcode
  | olen
  | erridx
  | ibuf (b : Nat)
  | obuf (b : Nat)
  | reserved
  deriving DecidableEq, Repr

/-- off = {a[17:2], 0b00} (R62, R63). -/
def wordOffset (a : PortAddr) : Nat := 4 * (a.toNat / 4)

/-- The region of an offset (R62). -/
def regionOf (a : PortAddr) : Region :=
  if wordOffset a = 0x00000 then .caps
  else if wordOffset a = 0x00004 then .cmd
  else if wordOffset a = 0x00008 then .status
  else if wordOffset a = 0x0000C then .cfg
  else if wordOffset a = 0x00010 then .thr
  else if wordOffset a = 0x00014 then .qcode
  else if wordOffset a = 0x00018 then .olen
  else if wordOffset a = 0x0001C then .erridx
  else if 0x10000 ≤ wordOffset a ∧ wordOffset a ≤ 0x1FFFC then .ibuf (wordOffset a - 0x10000)
  else if 0x20000 ≤ wordOffset a ∧ wordOffset a ≤ 0x2FFFC then .obuf (wordOffset a - 0x20000)
  else .reserved

/-- HostRead of a buffer window: locked while BUSY (R68, R69, R70, R71). -/
def readWindow (m : Memory) (size b : Nat) (s : State) : Word × State :=
  if s.busy then (0, s.setHaz)
  else
    let w := windowWord m size b s.draws
    (w.1, s.setDraws w.2)

/-- HostRead(a) of R71: the data and the state afterwards. -/
def hostRead (a : PortAddr) (s : State) : Word × State :=
  match regionOf a with
  | .caps => (s.capsWord, s)
  | .cmd => (0, s)
  | .status => (s.statusWord, s)
  | .cfg => (s.cfgWord, s)
  | .thr => (s.thrWord, s)
  | .qcode => (s.qcodeWord, s)
  | .olen => (s.olenWord, s)
  | .erridx => (s.erridxWord, s)
  | .ibuf b => readWindow s.ibuf s.wMax.toNat b s
  | .obuf b => readWindow s.obuf s.obMax b s
  | .reserved => (0, s)

/-- A write to CMD with some strobe set (R66). -/
def writeCmd (d : Word) (strb : Strobe) (s : State) : State :=
  if s.busy then s.setHaz else if strb = 0b1111#4 then s.acceptCommand d else s

/-- A write to STATUS: W1C of AERR (bit 8) and HAZ (bit 9), all four strobes needed (R67). -/
def writeStatus (d : Word) (strb : Strobe) (s : State) : State :=
  if strb = 0b1111#4 then s.clearSticky (d.getLsbD 8) (d.getLsbD 9) else s

/-- A write to the IBUF window with some strobe set (R68). -/
def writeIbuf (b : Nat) (d : Word) (strb : Strobe) (s : State) : State :=
  if s.busy then s.setHaz else s.setIbuf (writeWindow s.wMax.toNat b d strb s.ibuf)

/-- A write to the OBUF window with some strobe set: never changes OBUF (R69). -/
def writeObuf (s : State) : State := if s.busy then s.setHaz else s

/-- HostWrite(a, d, strb) of R72. -/
def hostWrite (a : PortAddr) (d : Word) (strb : Strobe) (s : State) : State :=
  if strb = 0 then s
  else
    match regionOf a with
    | .cmd => writeCmd d strb s
    | .status => writeStatus d strb s
    | .ibuf b => writeIbuf b d strb s
    | .obuf _ => writeObuf s
    | .caps | .cfg | .thr | .qcode | .olen | .erridx | .reserved => s

/-- A read handed to the host. -/
def hostReadLogged (a : PortAddr) (s : State) : State := (hostRead a s).2.logRead a (hostRead a s).1

/-- The offset of CMD (R22). -/
def cmdAddr : PortAddr := 0x00004

/-- The offset of STATUS (R22). -/
def statusAddr : PortAddr := 0x00008

/-- One pass of the loop of WAIT (30_encoding.md R101): read STATUS, and go on waiting while bit 0 is 1. -/
def waitPoll (s : State) : State :=
  let t := hostReadLogged statusAddr s
  if (hostRead statusAddr s).1.getLsbD 0 then t.setHostOps (.wait :: t.hostOps) else t

/-- One atomic step of the host (R61, R75; 70_reset_and_hazards.md R239). -/
def runHostOp (op : HostOp) (s : State) : State :=
  match op with
  | .read a => hostReadLogged a s
  | .write a d strb => hostWrite a d strb s
  | .wait => waitPoll s
  | .reset => s.resetEvent

/-- The host issues its next transaction, if it has one. -/
def hostTurn (s : State) : State :=
  match s.hostOps with
  | [] => s
  | op :: rest => runHostOp op (s.setHostOps rest)

end Sys2Proof.Machine
end

