-- ==== Sys2Proof/Machine/Engine.lean ====
section
/-! DEFINITION. The engine step (70_reset_and_hazards.md R240) and the interleaving of the two agents (20_memory.md
R75, 70_reset_and_hazards.md R239, R241). -/

namespace Sys2Proof.Machine

/-- EngineStep of R240: decode PEND and execute it; an ILLEGAL word raises IllegalCommand (R95, R208). -/
def engineStep (s : State) : Host.Outcome State Fault Refusal :=
  match decode s.pend with
  | .ok i => exec i s
  | .error _ => .next (s.raiseError .illegalCommand)

/-- The agent the schedule prefers now; when the schedule has run out, the engine, so that every accepted command
completes after finitely many host transactions (R241; log 5). -/
def preferred (s : State) : Agent := s.turns.headD .engine

/-- The agent that moves: the preferred one if it has a step, else the other one. The engine has a step exactly while
BUSY (R75, R240), the host while it has a transaction to issue. -/
def mover (s : State) : Option Agent :=
  match s.busy, s.hostOps, preferred s with
  | true, [], _ => some .engine
  | true, _ :: _, a => some a
  | false, _ :: _, _ => some .host
  | false, [], _ => none

/-- One step of the run (R239). With BUSY = 0 and no transaction nothing changes (60_exceptions.md R218; log 10). -/
def runTurn (s : State) : Host.Outcome State Fault Refusal :=
  match mover s with
  | some .engine => engineStep s.endTurn
  | some .host => .next (hostTurn s.endTurn)
  | none => .next s.endTurn

end Sys2Proof.Machine
end

