-- ==== Sys2Proof/Machine/HostProgram.lean ====
section
/-! DEFINITION. The host's written forms (30_encoding.md R100) and pseudo-instructions (R101), as lists of host
operations. -/

namespace Sys2Proof.Machine

/-- `WR off, d` (R100). -/
def wr (a : PortAddr) (d : Word) : HostOp := .write a d 0b1111#4

/-- `CMD <mnemonic …>` (R100): a write of the command's word to CMD. -/
def cmdWrite (i : Instr) : HostOp := wr cmdAddr (encode i)

/-- `RUN c` (R101): CMD c, then WAIT. -/
def runCommand (i : Instr) : List HostOp := [cmdWrite i, .wait]

/-- `CONVERT n` (R101): CMD PACK n, WAIT, RD 0x08. -/
def convert (n : Len) : List HostOp := [cmdWrite (.pack n), .wait, .read statusAddr]

/-- Sample i of a scanline; positions at or beyond its end are written as 0x00 (R101). -/
def sampleOrZero (xs : List Byte) (i : Nat) : Byte := (xs[i]?).getD 0

/-- The word of LOADLINE at word w: {s(4w+3), s(4w+2), s(4w+1), s(4w)} (R101). -/
def lineWord (xs : List Byte) (w : Nat) : Word :=
  sampleOrZero xs (4 * w + 3) ++ sampleOrZero xs (4 * w + 2) ++ sampleOrZero xs (4 * w + 1) ++ sampleOrZero xs (4 * w)

/-- The longest scanline whose words have an offset on the port: 0x10000 + 4w is below 2^18 for every w (R61). -/
def longestLine : Nat := 196608

/-- `LOADLINE [s0, …, s(n-1)]` (R101): one write per word of the scanline, w = 0 to ceil(n/4) - 1. Of a line longer than
`longestLine` the spec does not say what 0x10000 + 4w stands for on an 18-bit port (R61); here it wraps modulo 2^18, and
the written form of such a line is refused. DESIGN CHOICE, log 16. -/
def loadLine (xs : List Byte) : List HostOp :=
  (List.range ((xs.length + 3) / 4)).map (fun w => wr (BitVec.ofNat 18 (0x10000 + 4 * w)) (lineWord xs w))

end Sys2Proof.Machine
end

