-- ==== Sys2Proof/Machine/Step.lean ====
section
/-! DEFINITION. One step of the machine, and the placing of one command where the next step executes it. -/

namespace Sys2Proof.Machine

/-- One atomic step of a run (70_reset_and_hazards.md R239). -/
def step (s : State) : Host.Outcome State Fault Refusal := runTurn s

/-- The machine fetches nothing (10_state.md R21): the word is placed as an accepted CMD write leaves it, in PEND with
BUSY = 1, and the engine is given the next turn (log 9). -/
def State.withFetchWord (s : State) (nbits w : Nat) : State := s.offerCommand (tableWord nbits w)

end Sys2Proof.Machine
end

