-- ==== Sys2Proof/Safety.lean ====
section
/-! DEFINITION. The invariant of the machine and the premises the spec puts on a host, in the terms statements use. -/

namespace Sys2Proof.Machine

/-- What holds at reset and is kept by every step: W_MAX is in 1..65535 (00_scope.md R10); both buffers are canonical
and hold no byte at or beyond their size (10_state.md R38, R39); OLEN never exceeds OB_MAX (R34); ERRIDX is a sample
index (60_exceptions.md R203); and THR is zero until a SETT has succeeded (10_state.md R30, R32). -/
structure State.Inv (s : State) : Prop where
  capacity : 1 ≤ s.wMax.toNat
  ibufCanonical : Memory.wf s.ibuf
  ibufInside : Memory.below s.ibuf s.wMax.toNat
  obufCanonical : Memory.wf s.obuf
  obufInside : Memory.below s.obuf s.obMax
  olenBound : s.olen.toNat ≤ s.obMax
  erridxBound : s.erridx.toNat < s.wMax.toNat
  thresholdsZero : s.tvalid = false → s.t1 = 0 ∧ s.t2 = 0 ∧ s.t3 = 0

/-- Each of OBUF[0..OLEN-1] has been written since reset (10_state.md R34, R39, R40). -/
abbrev State.OutputWritten (s : State) : Prop := ∀ k, k < s.olen.toNat → Memory.get s.obuf k ≠ none

/-- IBUF[0..n-1] holds the samples `xs`, all written since reset: the premise of 70_reset_and_hazards.md R233 and
93_implementation_defined.md item 6. -/
abbrev State.LineLoaded (s : State) (xs : List Byte) : Prop := ∀ i, i < xs.length → Memory.get s.ibuf i = xs[i]?

/-- The registers and buffers the engine writes, and those its commands read, agree in `s` and `t`. AERR is left out,
since the host may clear it (10_state.md R42), and HAZ, which the engine never writes (R29). -/
structure SameResults (s t : State) : Prop where
  wMax : s.wMax = t.wMax
  busy : s.busy = t.busy
  errcode : s.errcode = t.errcode
  tvalid : s.tvalid = t.tvalid
  gap : s.gap = t.gap
  ordchk : s.ordchk = t.ordchk
  t1 : s.t1 = t.t1
  t2 : s.t2 = t.t2
  t3 : s.t3 = t.t3
  qcode : s.qcode = t.qcode
  olen : s.olen = t.olen
  erridx : s.erridx = t.erridx
  pend : s.pend = t.pend
  ibuf : s.ibuf = t.ibuf
  obuf : s.obuf = t.obuf

/-- The code of a class under policy (b), where a gap takes code 0 (41_quantizer.md R142). -/
def SampleClass.codeOrZero : SampleClass → Code
  | .code c => c
  | .gap => 0

/-- The code the scanline `xs` has at index i under the thresholds of `s`: an absent position has code 0
(42_packer.md R163). -/
def lineCode (s : State) (xs : List Byte) (i : Nat) : Code :=
  match xs[i]? with
  | some x => (classify x s.t1 s.t2 s.t3).codeOrZero
  | none => 0

/-- The samples a PACK n of the state `s` reads, in index order; a byte nobody has written is a fresh draw (R40, R165). -/
def packSamples (s : State) (n : Nat) : List Byte := (readRun s.ibuf 0 n s.draws).1

/-- The draw counter after those reads. -/
def packDraws (s : State) (n : Nat) : Nat := (readRun s.ibuf 0 n s.draws).2

/-- How many of the bytes `i` to `i + n - 1` nobody has written since reset: each read of one is a fresh draw (R40). -/
def unwrittenBytes (m : Memory) (i n : Nat) : Nat := (List.range' i n).countP (fun k => Memory.get m k = none)

/-- How many of the first `n` lanes of the word at byte `b` of a buffer of `size` bytes lie inside it and have not been
written: each read of one is a fresh draw (R40, R73). -/
def unwrittenLanes (m : Memory) (size b n : Nat) : Nat :=
  (List.range n).countP (fun j => b + j < size ∧ Memory.get m (b + j) = none)

/-- `r` is a read of that word in the state `s`, its draws numbered by `s.draws` and on (R40, R73): each unwritten lane
reads as a free byte of a draw of its own, and the state changes by those draws alone. -/
def LanesDrawn (m : Memory) (size b : Nat) (s : State) (r : Word × State) : Prop :=
  r.2 = { s with draws := s.draws + unwrittenLanes m size b 4 } ∧
    ∃ number : Nat → Nat, ∀ j, j < 4 → b + j < size → Memory.get m (b + j) = none →
      s.draws ≤ number j ∧ number j < s.draws + unwrittenLanes m size b 4 ∧
      r.1.extractLsb' (8 * j) 8 = Config.freeByte (number j) ∧
      ∀ k, k < 4 → b + k < size → Memory.get m (b + k) = none → k ≠ j → number k ≠ number j

/-- The next step of `s` is the engine executing the command `i`. -/
abbrev EngineExecutes (s : State) (i : Instr) : Prop := mover s = some .engine ∧ decode s.pend = .ok i

/-- The next step of `s` is the host doing `op`. -/
abbrev HostIssues (s : State) (op : HostOp) : Prop := mover s = some .host ∧ s.hostOps.head? = some op

/-- The offset lies in the IBUF window (20_memory.md R62). -/
abbrev InIbufWindow (a : PortAddr) : Prop := 0x10000 ≤ wordOffset a ∧ wordOffset a ≤ 0x1FFFC

/-- The offset lies in the OBUF window (R62). -/
abbrev InObufWindow (a : PortAddr) : Prop := 0x20000 ≤ wordOffset a ∧ wordOffset a ≤ 0x2FFFC

/-- The host does the operations one after another, with no engine step between them. -/
def runHostOps (ops : List HostOp) (s : State) : State := ops.foldl (fun t op => runHostOp op t) s

end Sys2Proof.Machine
end

