-- ==== Sys2Proof/Certificates/Slice0/Obligations.lean ====
section
/-! DEFINITION. The statements about the machine, from the numbered rules of spec/. -/

open Sys2Proof Sys2Proof.Machine

/-! ### Reset and the step -/

/-- R41: after reset every register has the value of the table, and no byte of either buffer has been written.
Config.wMax is the open parameter W_MAX (log 1). -/
def Obligations.ResetRegisterValues : Prop :=
  (hostRead 0x00000 State.reset).1 = Config.wMax.setWidth 32 ∧ State.reset.busy = false ∧
    State.reset.errcode = .none ∧ State.reset.aerr = false ∧ State.reset.haz = false ∧
    State.reset.tvalid = false ∧ State.reset.gap = false ∧ State.reset.ordchk = false ∧
    State.reset.t1 = 0 ∧ State.reset.t2 = 0 ∧ State.reset.t3 = 0 ∧ State.reset.qcode = 0 ∧
    State.reset.olen = 0 ∧ State.reset.erridx = 0 ∧
    (∀ i, Memory.get State.reset.ibuf i = none) ∧ (∀ i, Memory.get State.reset.obuf i = none)

/-- R230: the reset event leaves the values of R41, whatever was executing, and both buffers unwritten. -/
def Obligations.ResetEventRestoresResetValues : Prop :=
  ∀ s : State, ∃ t, runHostOp .reset s = t ∧ t.wMax = s.wMax ∧ t.busy = false ∧ t.errcode = .none ∧
    t.aerr = false ∧ t.haz = false ∧ t.tvalid = false ∧ t.gap = false ∧ t.ordchk = false ∧
    t.t1 = 0 ∧ t.t2 = 0 ∧ t.t3 = 0 ∧ t.qcode = 0 ∧ t.olen = 0 ∧ t.erridx = 0 ∧
    (∀ i, Memory.get t.ibuf i = none) ∧ (∀ i, Memory.get t.obuf i = none)

/-- The invariant holds at reset. -/
def Obligations.ResetMeetsInvariant : Prop := State.reset.Inv

/-- Every step keeps the invariant: the buffers canonical and inside their sizes, OLEN at most OB_MAX, ERRIDX a sample
index, THR zero until a SETT has succeeded. -/
def Obligations.StepKeepsInvariant : Prop := ∀ s t : State, s.Inv → step s = .next t → t.Inv

/-- Every step keeps OBUF[0..OLEN-1] written: some byte is held at each index, the packed one or, after a PACK that
raised InvalidSample, a drawn one. That a drawn byte is held is the model's choice (log 4). -/
def Obligations.StepKeepsOutputWritten : Prop :=
  ∀ s t : State, s.OutputWritten → step s = .next t → t.OutputWritten

/-- Every state has a next state: no host transaction and no command stops the machine (log 13), and with nothing
to do the step idles (log 10). -/
def Obligations.EveryStepAnswersNext : Prop := ∀ s : State, ∃ t, step s = .next t

/-- When the engine moves and PEND decodes to a command, the step is the execution of that command, with one turn of
the schedule used up (the schedule is the model's choice, log 5). -/
def Obligations.StepRunsDecodedCommand : Prop :=
  ∀ (s : State) (i : Instr), s.busy = true → (s.hostOps = [] ∨ s.turns.head? ≠ some .host) →
    decode s.pend = .ok i → step s = exec i { s with turns := s.turns.tail }

/-- When the host moves, the step is its next transaction (the host program and the schedule in State are the model's
choice, log 5 and log 6). -/
def Obligations.StepRunsHostTransaction : Prop :=
  ∀ (s : State) (op : HostOp) (rest : List HostOp), s.hostOps = op :: rest →
    (s.busy = false ∨ s.turns.head? = some .host) →
    step s = .next (runHostOp op { s with hostOps := rest, turns := s.turns.tail })

/-- R95, R208: a word that decodes to ILLEGAL changes nothing but ERRCODE, AERR and BUSY (and the model's own
schedule, log 5). -/
def Obligations.StepRaisesIllegalCommand : Prop :=
  ∀ (s : State) (e : Illegal), s.busy = true → (s.hostOps = [] ∨ s.turns.head? ≠ some .host) →
    decode s.pend = .error e →
    step s = .next { s with turns := s.turns.tail, errcode := .illegalCommand, aerr := true, busy := false }

/-- With BUSY = 0 and no transaction to come every register and buffer keeps its value. That idling is a next
state is the model's choice (log 10). -/
def Obligations.IdleStepKeepsState : Prop :=
  ∀ s : State, s.busy = false → s.hostOps = [] → step s = .next { s with turns := s.turns.tail }

/-- R37: while BUSY is 0 no step reads PEND. Two states that differ in PEND alone step to states that differ in PEND
alone, if at all; so nothing rests on the value PEND has at reset (log 3). -/
def Obligations.PendNeverReadWhileIdle : Prop :=
  ∀ (s t : State) (v : Word), s.busy = false → step s = .next t →
    ∃ u, step { s with pend := v } = .next u ∧ u = { t with pend := u.pend } ∧
      (u.pend = t.pend ∨ u.pend = v ∧ t.pend = s.pend)

/-- A command placed for the next step is the one that step executes; the placing is the model's (log 9). -/
def Obligations.PlacedWordRunsNext : Prop :=
  ∀ (s : State) (nbits w : Nat) (i : Instr), decodeTableWord nbits w = some i →
    step (s.withFetchWord nbits w) = exec i { s with pend := BitVec.ofNat 32 (w % 2 ^ nbits), busy := true }

/-! ### Encoding -/

/-- Words of 95_test_vectors.md section 2.1, and what they decode to. -/
def Obligations.DecodesSpecWords : Prop :=
  (decode 0x01326496).toOption = some (.sett 50 100 150) ∧ (decode 0x01FFFFFF).toOption = some (.sett 255 255 255) ∧
    (decode 0x02000001).toOption = some (.setcfg true false) ∧
    (decode 0x02000003).toOption = some (.setcfg true true) ∧ (decode 0x02000004).toOption = none ∧
    (decode 0x03000078).toOption = some (.quant 120) ∧ (decode 0x03000100).toOption = none ∧
    (decode 0x04000004).toOption = some (.pack 4) ∧ (decode 0x0400FFFF).toOption = some (.pack 65535) ∧
    (decode 0x04010000).toOption = none ∧ (decode 0x00000000).toOption = none ∧
    (decode 0x05000000).toOption = none ∧ (decode 0xFF000000).toOption = none

/-- Decoding the word of any command gives that command back, every operand at every value. -/
def Obligations.DecodeEncodeAgree : Prop := ∀ i : Instr, decode (encode i) = .ok i

/-- Each command has one word: a word that decodes to a command is the word of that command. -/
def Obligations.EncodeDecodeAgree : Prop := ∀ (w : Word) (i : Instr), decode w = .ok i → encode i = w

/-- The legal words, by the fields of R90: opcode 1 with any operands, opcodes 2, 3 and 4 with every reserved bit 0. -/
def Obligations.LegalWordsAreTheFourFormats : Prop :=
  ∀ w : Word, (∃ i, decode w = .ok i) ↔
    (w.toNat / 2 ^ 24 = 1 ∨ (w.toNat / 2 ^ 24 = 2 ∧ w.toNat / 2 ^ 2 % 2 ^ 22 = 0) ∨
      (w.toNat / 2 ^ 24 = 3 ∧ w.toNat / 2 ^ 8 % 2 ^ 16 = 0) ∨ (w.toNat / 2 ^ 24 = 4 ∧ w.toNat / 2 ^ 16 % 2 ^ 8 = 0))

/-- R99: the assembler's words, and its refusal of an operand that does not fit its field. That `.word` refuses a number
of more than 32 bits is DEDUCED, no rule says it (log 15). -/
def Obligations.AssemblerWordsAndRefusals : Prop :=
  (∀ a b c : Nat, assemble (.sett a b c) =
    if a ≤ 255 ∧ b ≤ 255 ∧ c ≤ 255 then some (BitVec.ofNat 32 (0x01000000 ||| a <<< 16 ||| b <<< 8 ||| c)) else none) ∧
  (∀ g o : Nat, assemble (.setcfg g o) =
    if g ≤ 1 ∧ o ≤ 1 then some (BitVec.ofNat 32 (0x02000000 ||| o <<< 1 ||| g)) else none) ∧
  (∀ x : Nat, assemble (.quant x) = if x ≤ 255 then some (BitVec.ofNat 32 (0x03000000 ||| x)) else none) ∧
  (∀ n : Nat, assemble (.pack n) = if n ≤ 65535 then some (BitVec.ofNat 32 (0x04000000 ||| n)) else none) ∧
  (∀ w : Nat, assemble (.word w) = if w < 2 ^ 32 then some (BitVec.ofNat 32 w) else none)

/-! ### QC and P4 -/

/-- R140: the branches in order, the first match wins, for any thresholds. -/
def Obligations.ClassifyFirstMatchWins : Prop :=
  ∀ x a b c : Byte,
    (x.toNat = 0 → classify x a b c = .code 0) ∧
    (x.toNat ≠ 0 → a.toNat < x.toNat ∧ x.toNat ≤ b.toNat → classify x a b c = .code 1) ∧
    (x.toNat ≠ 0 → ¬ (a.toNat < x.toNat ∧ x.toNat ≤ b.toNat) → b.toNat < x.toNat ∧ x.toNat ≤ c.toNat →
      classify x a b c = .code 2) ∧
    (x.toNat ≠ 0 → ¬ (a.toNat < x.toNat ∧ x.toNat ≤ b.toNat) → ¬ (b.toNat < x.toNat ∧ x.toNat ≤ c.toNat) →
      c.toNat < x.toNat → classify x a b c = .code 3) ∧
    (x.toNat ≠ 0 → ¬ (a.toNat < x.toNat ∧ x.toNat ≤ b.toNat) → ¬ (b.toNat < x.toNat ∧ x.toNat ≤ c.toNat) →
      ¬ c.toNat < x.toNat → classify x a b c = .gap)

/-- R143: the laws of QC for ordered thresholds, monotonicity among them. -/
def Obligations.ClassifyOrderedLaws : Prop :=
  ∀ a b c : Byte, a.toNat ≤ b.toNat → b.toNat ≤ c.toNat →
    (∀ x : Byte, (classify x a b c = .code 0 ↔ x.toNat = 0) ∧
      (classify x a b c = .code 1 ↔ a.toNat < x.toNat ∧ x.toNat ≤ b.toNat) ∧
      (classify x a b c = .code 2 ↔ b.toNat < x.toNat ∧ x.toNat ≤ c.toNat) ∧
      (classify x a b c = .code 3 ↔ c.toNat < x.toNat ∧ x.toNat ≤ 255) ∧
      (classify x a b c = .gap ↔ 0 < x.toNat ∧ x.toNat ≤ a.toNat)) ∧
    ∀ (x y : Byte) (p q : Code), x.toNat ≤ y.toNat → classify x a b c = .code p → classify y a b c = .code q →
      p.toNat ≤ q.toNat

/-- Corner cases of R124: equal thresholds leave a code out, all-zero thresholds have no gap, all-255 thresholds
classify nothing but 0. -/
def Obligations.ClassifyDegenerateThresholds : Prop :=
  (∀ x a c : Byte, classify x a a c ≠ .code 1) ∧ (∀ x a b : Byte, classify x a b b ≠ .code 2) ∧
    (∀ x : Byte, x ≠ 0 → classify x 0 0 0 = .code 3) ∧ (∀ x : Byte, x ≠ 0 → classify x 255 255 255 = .gap)

/-- R160: the byte of four codes, as a sum. -/
def Obligations.Pack4IsWeightedSum : Prop :=
  ∀ a b c d : Code, (pack4 a b c d).toNat = a.toNat * 64 + b.toNat * 16 + c.toNat * 4 + d.toNat

/-- R162: unpacking is the inverse of packing, both ways. -/
def Obligations.UnpackInvertsPack4 : Prop :=
  (∀ a b c d : Code, unpackCode (pack4 a b c d) 1 = a ∧ unpackCode (pack4 a b c d) 2 = b ∧
    unpackCode (pack4 a b c d) 3 = c ∧ unpackCode (pack4 a b c d) 4 = d) ∧
  ∀ v : Byte, pack4 (unpackCode v 1) (unpackCode v 2) (unpackCode v 3) (unpackCode v 4) = v

/-! ### The four commands -/

/-- R122, R123: SETT. -/
def Obligations.SettSemantics : Prop :=
  ∀ (s : State) (a b c : Byte),
    (s.ordchk = false ∨ (a.toNat ≤ b.toNat ∧ b.toNat ≤ c.toNat) →
      exec (.sett a b c) s =
        .next { s with t1 := a, t2 := b, t3 := c, tvalid := true, errcode := .none, busy := false }) ∧
    (s.ordchk = true → ¬ (a.toNat ≤ b.toNat ∧ b.toNat ≤ c.toNat) →
      exec (.sett a b c) s = .next { s with errcode := .orderError, aerr := true, busy := false })

/-- R125: SETCFG, with its word and the words that decode to it. -/
def Obligations.SetcfgSemantics : Prop :=
  (∀ w : Word, (∃ g o, decode w = .ok (.setcfg g o)) ↔ w &&& 0xFFFFFFFC#32 = 0x02000000#32) ∧
  ∀ (s : State) (g o : Bool),
    encode (.setcfg g o) = 0x02000000#32 ||| (BitVec.ofBool o).setWidth 32 <<< 1 ||| (BitVec.ofBool g).setWidth 32 ∧
    exec (.setcfg g o) s = .next { s with gap := g, ordchk := o, errcode := .none, busy := false }

/-- R142, R145: QUANT, on every path. -/
def Obligations.QuantSemantics : Prop :=
  ∀ (s : State) (x : Byte),
    (s.tvalid = false → exec (.quant x) s = .next { s with errcode := .noThresholds, aerr := true, busy := false }) ∧
    (s.tvalid = true → ∀ c : Code, classify x s.t1 s.t2 s.t3 = .code c →
      exec (.quant x) s = .next { s with qcode := c, errcode := .none, busy := false }) ∧
    (s.tvalid = true → classify x s.t1 s.t2 s.t3 = .gap → s.gap = true →
      exec (.quant x) s = .next { s with qcode := 0, errcode := .none, busy := false }) ∧
    (s.tvalid = true → classify x s.t1 s.t2 s.t3 = .gap → s.gap = false →
      exec (.quant x) s =
        .next { s with errcode := .invalidSample, aerr := true, erridx := 0, busy := false })

/-- The samples PACK reads: a byte written since reset is read as it is, and each other one is a free draw of its own: as
many draws as unwritten bytes, no two of them the same. The form of a draw is the model's choice (log 2). -/
def Obligations.PackSamplesAreIbufOrDraws : Prop :=
  ∀ (s : State) (n : Nat), (packSamples s n).length = n ∧ packDraws s n = s.draws + unwrittenBytes s.ibuf 0 n ∧
    (∀ i b, i < n → Memory.get s.ibuf i = some b → (packSamples s n)[i]? = some b) ∧
    ∃ number : Nat → Nat, ∀ i, i < n → Memory.get s.ibuf i = none →
      s.draws ≤ number i ∧ number i < packDraws s n ∧ (packSamples s n)[i]? = some (Config.freeByte (number i)) ∧
      ∀ k, k < n → Memory.get s.ibuf k = none → k ≠ i → number k ≠ number i

/-- PACK of a line without a gap, or under policy (b), for any contents of IBUF: OLEN and OBUF[0..m-1] are written,
absent positions as code 0, and OBUF from m on is unchanged (R163, R165); the draws are log 2. -/
def Obligations.PackCompletes : Prop :=
  ∀ (s : State) (n : Len), s.tvalid = true → n.toNat ≤ s.wMax.toNat →
    (s.gap = true ∨ ∀ x ∈ packSamples s n.toNat, classify x s.t1 s.t2 s.t3 ≠ .gap) →
    ∃ ob, exec (.pack n) s = .next { s with
        obuf := ob, olen := BitVec.ofNat 16 ((n.toNat + 3) / 4), draws := packDraws s n.toNat,
        errcode := .none, busy := false } ∧
      ∀ k, Memory.get ob k =
        if k < (n.toNat + 3) / 4 then
          some (pack4 (lineCode s (packSamples s n.toNat) (4 * k)) (lineCode s (packSamples s n.toNat) (4 * k + 1))
            (lineCode s (packSamples s n.toNat) (4 * k + 2)) (lineCode s (packSamples s n.toNat) (4 * k + 3)))
        else Memory.get s.obuf k

/-- PACK of a line the host has loaded: the packed line is that of its samples, and no byte is drawn. -/
def Obligations.PackCompletesOnLoadedLine : Prop :=
  ∀ (s : State) (n : Len) (xs : List Byte), s.tvalid = true → n.toNat ≤ s.wMax.toNat → xs.length = n.toNat →
    s.LineLoaded xs → (s.gap = true ∨ ∀ x ∈ xs, classify x s.t1 s.t2 s.t3 ≠ .gap) →
    ∃ ob, exec (.pack n) s = .next { s with
        obuf := ob, olen := BitVec.ofNat 16 ((n.toNat + 3) / 4), errcode := .none, busy := false } ∧
      ∀ k, Memory.get ob k =
        if k < (n.toNat + 3) / 4 then
          some (pack4 (lineCode s xs (4 * k)) (lineCode s xs (4 * k + 1)) (lineCode s xs (4 * k + 2))
            (lineCode s xs (4 * k + 3)))
        else Memory.get s.obuf k

/-- R166 items 2 and 3: NoThresholds whatever n, then LengthError; nothing else changes and IBUF is not read. -/
def Obligations.PackRefusesBeforeReading : Prop :=
  ∀ (s : State) (n : Len),
    (s.tvalid = false → exec (.pack n) s = .next { s with errcode := .noThresholds, aerr := true, busy := false }) ∧
    (s.tvalid = true → s.wMax.toNat < n.toNat →
      exec (.pack n) s = .next { s with errcode := .lengthError, aerr := true, busy := false })

/-- R167: a PACK whose first gap under policy (a) is at index j. ERRIDX is j, OBUF[0..m-1] holds one free draw per byte,
OBUF from m on and OLEN are unchanged. The numbering of the draws, and that a drawn byte is held, are the model's choice
(log 2, log 4). -/
def Obligations.PackRaisesInvalidSample : Prop :=
  ∀ (s : State) (n : Len) (j : Nat) (x : Byte), s.tvalid = true → n.toNat ≤ s.wMax.toNat → s.gap = false →
    (packSamples s n.toNat)[j]? = some x → classify x s.t1 s.t2 s.t3 = .gap →
    (∀ k y, k < j → (packSamples s n.toNat)[k]? = some y → classify y s.t1 s.t2 s.t3 ≠ .gap) →
    ∃ ob, exec (.pack n) s = .next { s with
        obuf := ob, draws := packDraws s n.toNat + (n.toNat + 3) / 4, erridx := BitVec.ofNat 16 j,
        errcode := .invalidSample, aerr := true, busy := false } ∧
      ∀ k, Memory.get ob k =
        if k < (n.toNat + 3) / 4 then some (Config.freeByte (packDraws s n.toNat + k)) else Memory.get s.obuf k

/-- The condition PACK reports is the first of NoThresholds, LengthError, InvalidSample that holds (R204). -/
def Obligations.PackReportsFirstCondition : Prop :=
  ∀ (s t : State) (n : Len), exec (.pack n) s = .next t →
    (t.errcode = .noThresholds ↔ s.tvalid = false) ∧
    (t.errcode = .lengthError ↔ s.tvalid = true ∧ s.wMax.toNat < n.toNat) ∧
    (t.errcode = .invalidSample ↔ s.tvalid = true ∧ n.toNat ≤ s.wMax.toNat ∧ s.gap = false ∧
      ∃ x ∈ packSamples s n.toNat, classify x s.t1 s.t2 s.t3 = .gap) ∧
    t.errcode ≠ .orderError ∧ t.errcode ≠ .illegalCommand

/-- R170, first corner case: a PACK of nothing. -/
def Obligations.PackOfNothing : Prop :=
  ∀ s : State,
    (s.tvalid = true → exec (.pack 0) s = .next { s with olen := 0, errcode := .none, busy := false }) ∧
    (s.tvalid = false → exec (.pack 0) s = .next { s with errcode := .noThresholds, aerr := true, busy := false })

/-- Locality and determinism (R169): each packed byte of a PACK that succeeds depends only on the present samples of
its own group, THR and CFG.GAP, when those samples have been written. -/
def Obligations.PackGroupLocality : Prop :=
  ∀ (s s' t t' : State) (n : Len) (k : Nat), exec (.pack n) s = .next t → exec (.pack n) s' = .next t' →
    t.errcode = .none → t'.errcode = .none → s.t1 = s'.t1 → s.t2 = s'.t2 → s.t3 = s'.t3 → s.gap = s'.gap →
    k < (n.toNat + 3) / 4 →
    (∀ i, 4 * k ≤ i → i < 4 * k + 4 → i < n.toNat →
      Memory.get s.ibuf i ≠ none ∧ Memory.get s.ibuf i = Memory.get s'.ibuf i) →
    Memory.get t.obuf k = Memory.get t'.obuf k ∧ t.olen = t'.olen

/-- Zero fill (R169): the low 2 * (4 - r) bits of the last packed byte are 0 when n mod 4 = r > 0. -/
def Obligations.PackZeroFillsLastGroup : Prop :=
  ∀ (s t : State) (n : Len), exec (.pack n) s = .next t → t.errcode = .none → 0 < n.toNat % 4 →
    ∃ b, Memory.get t.obuf ((n.toNat + 3) / 4 - 1) = some b ∧ b.toNat % 2 ^ (2 * (4 - n.toNat % 4)) = 0

/-- Under policy (b) no sample is invalid (R142, R166). -/
def Obligations.PolicyBNeverRaisesInvalidSample : Prop :=
  ∀ (s t : State) (i : Instr), s.gap = true → exec i s = .next t → t.errcode ≠ .invalidSample ∧ t.erridx = s.erridx

/-- Every completion (R26, R27, R28): BUSY is 0, an error sets AERR and a success leaves it, HAZ stays. PEND
stays too: no rule writes it at a completion (R78), which is DEDUCED (log 3). -/
def Obligations.CompletionReport : Prop :=
  ∀ (s t : State) (i : Instr), exec i s = .next t →
    t.busy = false ∧ (t.errcode ≠ .none → t.aerr = true) ∧ (t.errcode = .none → t.aerr = s.aerr) ∧
      t.haz = s.haz ∧ t.pend = s.pend

/-- What SETT, SETCFG and QUANT leave unchanged: both buffers at every index, OLEN, and every register the command does
not name. That PEND is one of them is DEDUCED (R78; log 3). -/
def Obligations.RegisterCommandFrame : Prop :=
  ∀ (s t : State) (i : Instr), (∀ n, i ≠ .pack n) → exec i s = .next t →
    (∀ a, Memory.get t.ibuf a = Memory.get s.ibuf a) ∧ (∀ a, Memory.get t.obuf a = Memory.get s.obuf a) ∧
    t.wMax = s.wMax ∧ t.haz = s.haz ∧ t.olen = s.olen ∧ t.pend = s.pend ∧ t.draws = s.draws ∧
    t.hostOps = s.hostOps ∧ t.turns = s.turns ∧ t.reads = s.reads ∧
    ((∀ a b c, i ≠ .sett a b c) → t.t1 = s.t1 ∧ t.t2 = s.t2 ∧ t.t3 = s.t3 ∧ t.tvalid = s.tvalid) ∧
    ((∀ g o, i ≠ .setcfg g o) → t.gap = s.gap ∧ t.ordchk = s.ordchk) ∧
    ((∀ x, i ≠ .quant x) → t.qcode = s.qcode ∧ t.erridx = s.erridx)

/-- What PACK leaves unchanged: IBUF, OBUF outside the ceil(n/4) bytes it stores from index 0, and every register but
OLEN, ERRIDX and STATUS; with no thresholds or too long a line, all of OBUF. That PEND
stays is DEDUCED (R78; log 3). -/
def Obligations.PackFrame : Prop :=
  ∀ (s t : State) (n : Len), exec (.pack n) s = .next t →
    (∀ a, Memory.get t.ibuf a = Memory.get s.ibuf a) ∧
    (∀ a, outLen n.toNat ≤ a → Memory.get t.obuf a = Memory.get s.obuf a) ∧
    (s.tvalid = false ∨ s.wMax.toNat < n.toNat → ∀ a, Memory.get t.obuf a = Memory.get s.obuf a) ∧
    (t.errcode ≠ .none → t.olen = s.olen) ∧ (t.errcode ≠ .invalidSample → t.erridx = s.erridx) ∧
    t.wMax = s.wMax ∧ t.haz = s.haz ∧ t.tvalid = s.tvalid ∧ t.gap = s.gap ∧ t.ordchk = s.ordchk ∧
    t.t1 = s.t1 ∧ t.t2 = s.t2 ∧ t.t3 = s.t3 ∧ t.qcode = s.qcode ∧ t.pend = s.pend ∧
    t.hostOps = s.hostOps ∧ t.turns = s.turns ∧ t.reads = s.reads

/-! ### Who writes a register, over every step -/

/-- R23: CAPS reads W_MAX, writes to it are ignored, and no step changes it. -/
def Obligations.CapacityNeverChanges : Prop :=
  (hostRead 0x00000 State.reset).1 = Config.wMax.setWidth 32 ∧
    (∀ s : State, hostRead 0x00000 s = (s.wMax.setWidth 32, s)) ∧
    (∀ (s : State) (d : Word) (strb : Strobe), hostWrite 0x00000 d strb s = s) ∧
    ∀ s t : State, step s = .next t → t.wMax = s.wMax

/-- THR and TVALID change only in a SETT that succeeds, which writes all four together, or in a reset. -/
def Obligations.ThresholdsWrittenOnlyBySett : Prop :=
  ∀ s t : State, step s = .next t → (t.t1, t.t2, t.t3, t.tvalid) ≠ (s.t1, s.t2, s.t3, s.tvalid) →
    HostIssues s .reset ∨
      ∃ a b c, EngineExecutes s (.sett a b c) ∧ t.t1 = a ∧ t.t2 = b ∧ t.t3 = c ∧ t.tvalid = true ∧ t.errcode = .none

/-- CFG changes only in a SETCFG or in a reset. -/
def Obligations.ConfigWrittenOnlyBySetcfg : Prop :=
  ∀ s t : State, step s = .next t → (t.gap, t.ordchk) ≠ (s.gap, s.ordchk) →
    HostIssues s .reset ∨ ∃ g o, EngineExecutes s (.setcfg g o) ∧ t.gap = g ∧ t.ordchk = o

/-- QCODE changes only in a QUANT that succeeds, OLEN only in a PACK that succeeds, ERRIDX only with InvalidSample, and a
byte of OBUF only in a PACK that succeeds or raises InvalidSample; or in a reset (R33, R34, R35, R42). -/
def Obligations.ResultsWrittenOnlyByTheirCommand : Prop :=
  ∀ s t : State, step s = .next t → ¬ HostIssues s .reset →
    (t.qcode ≠ s.qcode → ∃ x, EngineExecutes s (.quant x) ∧ t.errcode = .none) ∧
    (t.olen ≠ s.olen → ∃ n, EngineExecutes s (.pack n) ∧ t.errcode = .none) ∧
    (t.erridx ≠ s.erridx → t.errcode = .invalidSample ∧
      ((∃ x, EngineExecutes s (.quant x)) ∨ ∃ n, EngineExecutes s (.pack n))) ∧
    (∀ k, Memory.get t.obuf k ≠ Memory.get s.obuf k →
      ∃ n, EngineExecutes s (.pack n) ∧ k < outLen n.toNat ∧ (t.errcode = .none ∨ t.errcode = .invalidSample))

/-- R28: a completion with a non-zero ERRCODE sets AERR, and only a host W1C write or a reset clears it. -/
def Obligations.AerrIsStickyError : Prop :=
  ∀ s t : State, step s = .next t →
    (mover s = some .engine → t.errcode ≠ .none → t.aerr = true) ∧
    (s.aerr = true → t.aerr = false → HostIssues s .reset ∨
      ∃ a d, HostIssues s (.write a d 0b1111#4) ∧ wordOffset a = 0x00008 ∧ d.getLsbD 8 = true)

/-- R29: HAZ is set only by a host access that R70 names, while BUSY, and cleared only by a host W1C write or a
reset. -/
def Obligations.HazIsStickyHazard : Prop :=
  ∀ s t : State, step s = .next t →
    (s.haz = false → t.haz = true → s.busy = true ∧
      ((∃ a d strb, HostIssues s (.write a d strb) ∧ strb ≠ 0 ∧
          (wordOffset a = 0x00004 ∨ InIbufWindow a ∨ InObufWindow a)) ∨
        ∃ a, HostIssues s (.read a) ∧ (InIbufWindow a ∨ InObufWindow a))) ∧
    (s.haz = true → t.haz = false → HostIssues s .reset ∨
      ∃ a d, HostIssues s (.write a d 0b1111#4) ∧ wordOffset a = 0x00008 ∧ d.getLsbD 9 = true)

/-! ### The host port -/

/-- R63: address bits 1:0 are ignored, in a read and in a write. -/
def Obligations.LowAddressBitsIgnored : Prop :=
  ∀ (a b : PortAddr) (s : State), a.toNat / 4 = b.toNat / 4 →
    hostRead a s = hostRead b s ∧ ∀ d strb, hostWrite a d strb s = hostWrite b d strb s

/-- The registers as the host reads them, field by field, every reserved bit 0, at any value of BUSY (R71, R36). -/
def Obligations.RegisterReads : Prop :=
  ∀ s : State, hostRead 0x00004 s = (0, s) ∧
    (∃ w, hostRead 0x00008 s = (w, s) ∧ w.toNat =
      s.busy.toNat + s.errcode.bits.toNat * 2 ^ 4 + s.aerr.toNat * 2 ^ 8 + s.haz.toNat * 2 ^ 9 + s.tvalid.toNat * 2 ^ 10) ∧
    (∃ w, hostRead 0x0000C s = (w, s) ∧ w.toNat = s.gap.toNat + s.ordchk.toNat * 2) ∧
    (∃ w, hostRead 0x00010 s = (w, s) ∧ w.toNat = s.t1.toNat * 2 ^ 16 + s.t2.toNat * 2 ^ 8 + s.t3.toNat) ∧
    (∃ w, hostRead 0x00014 s = (w, s) ∧ w.toNat = s.qcode.toNat) ∧
    (∃ w, hostRead 0x00018 s = (w, s) ∧ w.toNat = s.olen.toNat) ∧
    (∃ w, hostRead 0x0001C s = (w, s) ∧ w.toNat = s.erridx.toNat)

/-- Reserved offsets read 0 and ignore writes; writes to a read-only register and writes with no strobe are ignored;
a write to OBUF never changes it (R36, R62, R69, R72). -/
def Obligations.IgnoredAccesses : Prop :=
  ∀ (a : PortAddr) (d : Word) (strb : Strobe) (s : State),
    (0x00020 ≤ wordOffset a ∧ wordOffset a ≤ 0x0FFFC ∨ 0x30000 ≤ wordOffset a →
      hostRead a s = (0, s) ∧ hostWrite a d strb s = s) ∧
    (wordOffset a = 0x00000 ∨ 0x0000C ≤ wordOffset a ∧ wordOffset a ≤ 0x0001C → hostWrite a d strb s = s) ∧
    hostWrite a d 0 s = s ∧ (hostWrite a d strb s).obuf = s.obuf

/-- R66: acceptance of a command. -/
def Obligations.CmdWriteAcceptance : Prop :=
  ∀ (a : PortAddr) (d : Word) (strb : Strobe) (s : State), wordOffset a = 0x00004 → strb ≠ 0 →
    (s.busy = true → hostWrite a d strb s = { s with haz := true }) ∧
    (s.busy = false → strb ≠ 0b1111#4 → hostWrite a d strb s = s) ∧
    (s.busy = false → strb = 0b1111#4 → hostWrite a d strb s = { s with pend := d, busy := true })

/-- R67: the write to STATUS, at any value of BUSY. -/
def Obligations.StatusWriteClears : Prop :=
  ∀ (a : PortAddr) (d : Word) (strb : Strobe) (s : State), wordOffset a = 0x00008 →
    (strb = 0b1111#4 → hostWrite a d strb s =
      { s with aerr := if d.getLsbD 8 then false else s.aerr, haz := if d.getLsbD 9 then false else s.haz }) ∧
    (strb ≠ 0b1111#4 → hostWrite a d strb s = s)

/-- A write to the IBUF window with BUSY = 0: exactly the bytes with a strobe and inside the buffer are written (R68). -/
def Obligations.IbufWriteLanes : Prop :=
  ∀ (a : PortAddr) (b : Nat) (d : Word) (strb : Strobe) (s : State), wordOffset a = 0x10000 + b → b ≤ 0xFFFC →
    s.busy = false →
    ∃ ib, hostWrite a d strb s = { s with ibuf := ib } ∧
      ∀ x, Memory.get ib x =
        if b ≤ x ∧ x < b + 4 ∧ x < s.wMax.toNat ∧ strb.getLsbD (x - b) = true then
          some (d.extractLsb' (8 * (x - b)) 8)
        else Memory.get s.ibuf x

/-- A read of a buffer window with BUSY = 0: a lane inside the buffer that has been written reads as it is, a lane
beyond the buffer reads 0, and nothing but the draw counter (log 2) changes (R68, R69). -/
def Obligations.WindowReadLanes : Prop :=
  ∀ (a : PortAddr) (b : Nat) (s : State) (j : Nat), s.busy = false → b ≤ 0xFFFC → j < 4 →
    (∃ d, s.draws ≤ d ∧ (hostRead a s).2 = { s with draws := d }) ∧
    (wordOffset a = 0x10000 + b →
      (s.wMax.toNat ≤ b + j → (hostRead a s).1.extractLsb' (8 * j) 8 = 0) ∧
      ∀ v, b + j < s.wMax.toNat → Memory.get s.ibuf (b + j) = some v →
        (hostRead a s).1.extractLsb' (8 * j) 8 = v) ∧
    (wordOffset a = 0x20000 + b →
      (s.obMax ≤ b + j → (hostRead a s).1.extractLsb' (8 * j) 8 = 0) ∧
      ∀ v, b + j < s.obMax → Memory.get s.obuf (b + j) = some v →
        (hostRead a s).1.extractLsb' (8 * j) 8 = v)

/-- A word written whole to the IBUF window reads back as it was written, when it lies inside the buffer (R64). -/
def Obligations.IbufWriteReadBack : Prop :=
  ∀ (a : PortAddr) (b : Nat) (d : Word) (s : State), wordOffset a = 0x10000 + b → b ≤ 0xFFFC → s.busy = false →
    b + 3 < s.wMax.toNat →
    hostRead a (hostWrite a d 0b1111#4 s) = (d, hostWrite a d 0b1111#4 s)

/-- R70: the host hazards while BUSY, and no other access sets HAZ. -/
def Obligations.BusyHazards : Prop :=
  ∀ (a : PortAddr) (d : Word) (strb : Strobe) (s : State), s.busy = true →
    (strb ≠ 0 → wordOffset a = 0x00004 ∨ InIbufWindow a ∨ InObufWindow a →
      hostWrite a d strb s = { s with haz := true }) ∧
    (InIbufWindow a ∨ InObufWindow a → hostRead a s = (0, { s with haz := true })) ∧
    (strb = 0 ∨ ¬ (wordOffset a = 0x00004 ∨ InIbufWindow a ∨ InObufWindow a) → s.haz = false →
      (hostWrite a d strb s).haz = false) ∧
    (¬ (InIbufWindow a ∨ InObufWindow a) → (hostRead a s).2 = s)

/-! ### Host and engine together -/

/-- While BUSY no host transaction but a reset changes the accepted command, what it will read, or BUSY (R70, R78). -/
def Obligations.AcceptedCommandIsFixed : Prop :=
  ∀ (s : State) (op : HostOp), s.busy = true → op ≠ .reset →
    SameResults (runHostOp op s) s ∧ (runHostOp op s).draws = s.draws

/-- The outcome of a command is the same whichever host transactions fall between its acceptance and its execution
(R75). -/
def Obligations.OutcomeIndependentOfInterleaving : Prop :=
  ∀ (s t u : State) (ops : List HostOp), s.busy = true → .reset ∉ ops → engineStep s = .next t →
    engineStep (runHostOps ops s) = .next u → SameResults t u ∧ t.draws = u.draws

/-- Every accepted command completes (R241): BUSY falls within as many steps as the schedule has turns, and one; and if
the host issues no reset, which would abandon the command (R230), a run of at most as many steps as turns reaches the
engine's execution of that very command, with all it reads as it was at the start. The bound is the model's choice of
finite schedules (log 5). -/
def Obligations.AcceptedCommandCompletes : Prop :=
  ∀ s : State, s.busy = true →
    (∃ k t, k ≤ s.turns.length + 1 ∧ Host.Core.run Sys2Proof.core k s = .next t ∧ t.busy = false) ∧
    (.reset ∉ s.hostOps →
      ∃ k u t, k ≤ s.turns.length ∧ Host.Core.run Sys2Proof.core k s = .next u ∧ mover u = some .engine ∧
        u.pend = s.pend ∧ SameResults u s ∧ u.draws = s.draws ∧ step u = .next t ∧ t.busy = false)

/-- A host that writes a command and waits for BUSY = 0 (RUN c) gets the state of that command's execution, under every
interleaving; only its record of reads and the schedule depend on it (R101, R236; log 5, log 6, log 7). -/
def Obligations.RunCommandReachesItsResult : Prop :=
  ∀ (s : State) (i : Instr) (rest : List HostOp), s.busy = false → s.hostOps = runCommand i ++ rest →
    ∃ (k : Nat) (t u : State), Host.Core.run Sys2Proof.core k s = .next t ∧
      exec i { s with pend := encode i, busy := true } = .next u ∧
      t = { u with hostOps := rest, turns := t.turns, reads := t.reads }

/-- LOADLINE puts the scanline into IBUF, zeros up to the end of its last word, and touches nothing else (R101; the
host program in State is log 6). -/
def Obligations.LoadLineLoadsTheScanline : Prop :=
  ∀ (s : State) (xs : List Byte) (rest : List HostOp), s.busy = false → xs.length ≤ s.wMax.toNat →
    s.hostOps = loadLine xs ++ rest →
    ∃ t ib, Host.Core.run Sys2Proof.core (loadLine xs).length s = .next t ∧
      t = { s with ibuf := ib, hostOps := rest, turns := t.turns } ∧
      ∀ i, Memory.get ib i =
        if i < 4 * ((xs.length + 3) / 4) ∧ i < s.wMax.toNat then some (sampleOrZero xs i) else Memory.get s.ibuf i

/-! ### Completion of QUANT, and the draws of a host read -/

/-- QUANT completes: with TVALID = 1 and a sample in {0} or in an interval of R140, or any sample under GAP = 1, it
answers the state with the code of the first branch that matches, 0 if none does (R140, R142, R145). -/
def Obligations.QuantCompletes : Prop :=
  ∀ (s : State) (x : Byte), s.tvalid = true →
    (s.gap = true ∨ x.toNat = 0 ∨ (s.t1.toNat < x.toNat ∧ x.toNat ≤ s.t2.toNat) ∨
      (s.t2.toNat < x.toNat ∧ x.toNat ≤ s.t3.toNat) ∨ s.t3.toNat < x.toNat) →
    exec (.quant x) s = .next { s with
      qcode :=
        if x.toNat = 0 then 0
        else if s.t1.toNat < x.toNat ∧ x.toNat ≤ s.t2.toNat then 1
        else if s.t2.toNat < x.toNat ∧ x.toNat ≤ s.t3.toNat then 2
        else if s.t3.toNat < x.toNat then 3
        else 0,
      errcode := .none, busy := false }

/-- A read of a buffer window with BUSY = 0: each lane inside the buffer that nobody has written is a free draw of its
own, and the draw counter moves by their number, so by none when every lane has been written or lies beyond the buffer
(R40, R68, R69, R73). The form of a draw is the model's choice (log 2). -/
def Obligations.WindowReadDraws : Prop :=
  ∀ (a : PortAddr) (b : Nat) (s : State), s.busy = false → b ≤ 0xFFFC →
    (wordOffset a = 0x10000 + b → LanesDrawn s.ibuf s.wMax.toNat b s (hostRead a s)) ∧
    (wordOffset a = 0x20000 + b → LanesDrawn s.obuf s.obMax b s (hostRead a s))
end

