-- ==== Sys2Proof/Laws/Decode.lean ====
section
/-! SUPPORT. The masks of the decoder as arithmetic on the word's number: a mask that keeps the bits from k upward
compares the quotient by 2^k. -/

namespace Sys2Proof

/-- Keeping the bits from k upward is shifting right and back. -/
theorem and_highMask (w : Word) (k : Nat) : w &&& (BitVec.allOnes 32 <<< k) = (w >>> k) <<< k := by
  apply BitVec.eq_of_getLsbD_eq
  intro i hi
  by_cases h : i < k
  · simp [h]
  · have e : k + (i - k) = i := by omega
    have a : (BitVec.allOnes 32).getLsbD (i - k) = true := by rw [BitVec.getLsbD_allOnes]; simp; omega
    rw [BitVec.getLsbD_and, BitVec.getLsbD_shiftLeft, BitVec.getLsbD_shiftLeft, BitVec.getLsbD_ushiftRight, a, e]
    simp [h, hi]

/-- A row of the table, as a comparison of the word's upper field. -/
theorem and_highMask_eq_iff (w : Word) {k c : Nat} (hk : k ≤ 32) (hc : c < 2 ^ (32 - k)) :
    w &&& (BitVec.allOnes 32 <<< k) = BitVec.ofNat 32 (c * 2 ^ k) ↔ w.toNat / 2 ^ k = c := by
  have hpow : 2 ^ (32 - k) * 2 ^ k = 2 ^ 32 := by rw [← Nat.pow_add]; congr 1; omega
  have hq : w.toNat / 2 ^ k * 2 ^ k < 2 ^ 32 :=
    Nat.lt_of_le_of_lt (Nat.div_mul_le_self _ _) w.isLt
  have hc' : c * 2 ^ k < 2 ^ 32 := by
    rw [← hpow]; exact Nat.mul_lt_mul_of_pos_right hc (Nat.two_pow_pos k)
  rw [and_highMask, ← BitVec.toNat_inj, BitVec.toNat_shiftLeft, BitVec.toNat_ushiftRight, BitVec.toNat_ofNat,
    Nat.shiftRight_eq_div_pow, Nat.shiftLeft_eq, Nat.mod_eq_of_lt hq, Nat.mod_eq_of_lt hc']
  exact ⟨fun h => Nat.eq_of_mul_eq_mul_right (Nat.two_pow_pos k) h, fun h => by rw [h]⟩

theorem sett_row_iff (w : Word) : w &&& 0xFF000000#32 = 0x01000000#32 ↔ w.toNat / 2 ^ 24 = 1 :=
  and_highMask_eq_iff w (k := 24) (c := 1) (by omega) (by omega)

theorem setcfg_row_iff (w : Word) : w &&& 0xFFFFFFFC#32 = 0x02000000#32 ↔ w.toNat / 2 ^ 2 = 2 ^ 23 :=
  have e : BitVec.allOnes 32 <<< 2 = 0xFFFFFFFC#32 := by decide
  by have := and_highMask_eq_iff w (k := 2) (c := 2 ^ 23) (by omega) (by omega); rwa [e] at this

theorem quant_row_iff (w : Word) : w &&& 0xFFFFFF00#32 = 0x03000000#32 ↔ w.toNat / 2 ^ 8 = 3 * 2 ^ 16 :=
  have e : BitVec.allOnes 32 <<< 8 = 0xFFFFFF00#32 := by decide
  by have := and_highMask_eq_iff w (k := 8) (c := 3 * 2 ^ 16) (by omega) (by omega); rwa [e] at this

theorem pack_row_iff (w : Word) : w &&& 0xFFFF0000#32 = 0x04000000#32 ↔ w.toNat / 2 ^ 16 = 4 * 2 ^ 8 :=
  have e : BitVec.allOnes 32 <<< 16 = 0xFFFF0000#32 := by decide
  by have := and_highMask_eq_iff w (k := 16) (c := 4 * 2 ^ 8) (by omega) (by omega); rwa [e] at this

/-- The four rows of the decoder in terms of the word's number. -/
theorem decode_eq (w : Word) :
    decode w =
      if w.toNat / 2 ^ 24 = 1 then .ok (.sett (w.extractLsb' 16 8) (w.extractLsb' 8 8) (w.extractLsb' 0 8))
      else if w.toNat / 2 ^ 2 = 2 ^ 23 then .ok (.setcfg (w.getLsbD 0) (w.getLsbD 1))
      else if w.toNat / 2 ^ 8 = 3 * 2 ^ 16 then .ok (.quant (w.extractLsb' 0 8))
      else if w.toNat / 2 ^ 16 = 4 * 2 ^ 8 then .ok (.pack (w.extractLsb' 0 16))
      else .error (illegalReason w) := by
  simp only [decode, sett_row_iff, setcfg_row_iff, quant_row_iff, pack_row_iff]

/-- The word of a command as a number (30_encoding.md R99). -/
theorem encode_sett_toNat (t1 t2 t3 : Byte) :
    (encode (.sett t1 t2 t3)).toNat = 2 ^ 24 + t1.toNat * 2 ^ 16 + t2.toNat * 2 ^ 8 + t3.toNat := by
  have h1 := t1.isLt; have h2 := t2.isLt; have h3 := t3.isLt
  simp only [encode, BitVec.toNat_append, BitVec.toNat_ofNat]
  rw [← Nat.shiftLeft_add_eq_or_of_lt h3, ← Nat.shiftLeft_add_eq_or_of_lt h2, ← Nat.shiftLeft_add_eq_or_of_lt h1]
  omega

theorem encode_setcfg_toNat (gap ordchk : Bool) :
    (encode (.setcfg gap ordchk)).toNat = 2 * 2 ^ 24 + ordchk.toNat * 2 + gap.toNat := by
  cases gap <;> cases ordchk <;> rfl

theorem encode_quant_toNat (s : Byte) : (encode (.quant s)).toNat = 3 * 2 ^ 24 + s.toNat := by
  have h := s.isLt
  simp only [encode, BitVec.toNat_append, BitVec.toNat_ofNat]
  rw [← Nat.shiftLeft_add_eq_or_of_lt h]
  norm_num [Nat.shiftLeft_eq]

theorem encode_pack_toNat (n : Len) : (encode (.pack n)).toNat = 4 * 2 ^ 24 + n.toNat := by
  have h := n.isLt
  simp only [encode, BitVec.toNat_append, BitVec.toNat_ofNat]
  rw [← Nat.shiftLeft_add_eq_or_of_lt h]
  norm_num [Nat.shiftLeft_eq]

end Sys2Proof
end

