-- ==== Sys2Proof/Laws/Memory.lean ====
section
/-! SUPPORT. The laws of the buffers: a read after a write, the canonical form, and what a run of reads or writes
does. Later proofs cite these and never unfold `Memory.set`. -/

namespace Sys2Proof.Machine

@[simp] theorem Memory.get_nil (i : Nat) : Memory.get [] i = none := rfl

@[simp] theorem Memory.get_cons (k : Nat) (b : Byte) (rest : Memory) (i : Nat) :
    Memory.get ((k, b) :: rest) i = if k = i then some b else Memory.get rest i := rfl

/-- A read after a write to the same index gives the byte written. -/
@[simp] theorem Memory.get_set_self (m : Memory) (i : Nat) (v : Byte) : Memory.get (Memory.set m i v) i = some v := by
  induction m with
  | nil => simp [Memory.set]
  | cons c rest ih =>
    obtain ⟨k, b⟩ := c
    unfold Memory.set
    split
    · simp
    · split
      · simp
      · rw [Memory.get_cons, if_neg (by omega), ih]

/-- A write leaves every other index alone. -/
theorem Memory.get_set_ne (m : Memory) {i j : Nat} (v : Byte) (h : j ≠ i) :
    Memory.get (Memory.set m i v) j = Memory.get m j := by
  induction m with
  | nil => simp [Memory.set, h.symm]
  | cons c rest ih =>
    obtain ⟨k, b⟩ := c
    unfold Memory.set
    split
    · rw [Memory.get_cons, if_neg h.symm]
    · split
      · rename_i _ hk
        rw [Memory.get_cons, if_neg h.symm, Memory.get_cons, if_neg (by omega)]
      · rw [Memory.get_cons, Memory.get_cons, ih]

theorem Memory.get_set (m : Memory) (i j : Nat) (v : Byte) :
    Memory.get (Memory.set m i v) j = if j = i then some v else Memory.get m j := by
  split
  · rename_i h; rw [h, Memory.get_set_self]
  · rename_i h; exact Memory.get_set_ne m v h

/-- The indexes listed after a write are the old ones and the one written. -/
theorem Memory.mem_set {m : Memory} {i : Nat} {v : Byte} {c : Host.Cell} (h : c ∈ Memory.set m i v) :
    c = (i, v) ∨ c ∈ m := by
  induction m with
  | nil => exact .inl (by simpa [Memory.set] using h)
  | cons d rest ih =>
    obtain ⟨k, b⟩ := d
    unfold Memory.set at h
    split at h
    · rcases List.mem_cons.1 h with h | h
      · exact .inl h
      · exact .inr h
    · split at h
      · rcases List.mem_cons.1 h with h | h
        · exact .inl h
        · exact .inr (List.mem_cons_of_mem _ h)
      · rcases List.mem_cons.1 h with h | h
        · exact .inr (h ▸ List.mem_cons_self)
        · exact (ih h).imp_right (List.mem_cons_of_mem _)

/-- A write keeps the canonical form. -/
theorem Memory.set_wf {m : Memory} (h : Memory.wf m) (i : Nat) (v : Byte) : Memory.wf (Memory.set m i v) := by
  induction m with
  | nil => simp [Memory.set]
  | cons c rest ih =>
    obtain ⟨k, b⟩ := c
    have ⟨hk, hr⟩ := List.pairwise_cons.1 h
    unfold Memory.set
    split
    · rename_i hik
      refine List.pairwise_cons.2 ⟨fun d hd => ?_, h⟩
      rcases List.mem_cons.1 hd with rfl | hd
      · exact hik
      · exact Nat.lt_trans hik (hk d hd)
    · split
      · rename_i _ hik
        exact List.pairwise_cons.2 ⟨fun d hd => hik ▸ hk d hd, hr⟩
      · refine List.pairwise_cons.2 ⟨fun d hd => ?_, ih hr⟩
        rcases Memory.mem_set hd with rfl | hd
        · show k < i
          omega
        · exact hk d hd

/-- A write inside the size keeps every listed index inside it. -/
theorem Memory.set_below {m : Memory} {size : Nat} (h : Memory.below m size) {i : Nat} (hi : i < size) (v : Byte) :
    Memory.below (Memory.set m i v) size := by
  intro c hc
  rcases Memory.mem_set hc with rfl | hc
  · exact hi
  · exact h c hc

/-- What a run of writes leaves at every index. -/
theorem Memory.get_setRun (m : Memory) (base : Nat) (vs : List Byte) (j : Nat) :
    Memory.get (Memory.setRun m base vs) j =
      if base ≤ j ∧ j < base + vs.length then vs[j - base]? else Memory.get m j := by
  induction vs generalizing m base with
  | nil => simp [Memory.setRun]
  | cons v vs ih =>
    rw [Memory.setRun, ih, Memory.get_set]
    by_cases hj : j = base
    · subst hj; simp
    · by_cases hb : base + 1 ≤ j ∧ j < base + 1 + vs.length
      · have e : j - base = (j - (base + 1)) + 1 := by omega
        rw [if_pos hb, if_pos (by simp; omega), e, List.getElem?_cons_succ]
      · rw [if_neg hb, if_neg hj, if_neg (by simp; omega)]

theorem Memory.setRun_wf {m : Memory} (h : Memory.wf m) (base : Nat) (vs : List Byte) :
    Memory.wf (Memory.setRun m base vs) := by
  induction vs generalizing m base with
  | nil => exact h
  | cons v vs ih => exact ih (Memory.set_wf h base v) (base + 1)

theorem Memory.setRun_below {m : Memory} {size : Nat} (h : Memory.below m size) (base : Nat) (vs : List Byte)
    (hs : base + vs.length ≤ size) : Memory.below (Memory.setRun m base vs) size := by
  induction vs generalizing m base with
  | nil => exact h
  | cons v vs ih =>
    simp at hs
    exact ih (Memory.set_below h (by omega) v) (base + 1) (by omega)

/-- A run of writes from index 0, as PACK makes it. -/
theorem Memory.get_setRun_zero (m : Memory) (vs : List Byte) (j : Nat) :
    Memory.get (Memory.setRun m 0 vs) j = if j < vs.length then vs[j]? else Memory.get m j := by
  rw [Memory.get_setRun]; simp

@[simp] theorem freeRun_length (d count : Nat) : (freeRun d count).length = count := by simp [freeRun]

theorem freeRun_getElem? (d count k : Nat) (h : k < count) :
    (freeRun d count)[k]? = some (Config.freeByte (d + k)) := by
  simp [freeRun, h]

/-- Reading a byte that has been written draws nothing. -/
theorem readByte_written {m : Memory} {i draws : Nat} {b : Byte} (h : Memory.get m i = some b) :
    readByte m i draws = (b, draws) := by
  simp [readByte, h]

/-- Reading a byte nobody has written is one fresh draw. -/
theorem readByte_unwritten {m : Memory} {i draws : Nat} (h : Memory.get m i = none) :
    readByte m i draws = (Config.freeByte draws, draws + 1) := by
  simp [readByte, h]

@[simp] theorem readRun_length (m : Memory) (i n draws : Nat) : (readRun m i n draws).1.length = n := by
  induction n generalizing i draws with
  | zero => rfl
  | succ n ih => simp [readRun, ih]

/-- A byte of the run that has been written reads as it is, whatever has been drawn before it. -/
theorem readRun_getElem?_written {m : Memory} {i n draws k : Nat} {b : Byte} (hk : k < n)
    (h : Memory.get m (i + k) = some b) : (readRun m i n draws).1[k]? = some b := by
  induction n generalizing i draws k with
  | zero => omega
  | succ n ih =>
    cases k with
    | zero => simp [readRun, readByte_written (by simpa using h)]
    | succ k =>
      simp only [readRun, List.getElem?_cons_succ]
      exact ih (by omega) (by rw [← h]; congr 1; omega)

/-- A run whose bytes have all been written reads as they are and draws nothing. -/
theorem readRun_written {m : Memory} {i draws : Nat} {xs : List Byte}
    (h : ∀ k, k < xs.length → Memory.get m (i + k) = xs[k]?) : readRun m i xs.length draws = (xs, draws) := by
  induction xs generalizing i with
  | nil => rfl
  | cons x xs ih =>
    have h0 := readByte_written (draws := draws) (m := m) (i := i) (b := x) (by simpa using h 0 (by simp))
    have hr := ih (i := i + 1) (fun k hk => by
      have := h (k + 1) (by simpa using hk)
      rw [List.getElem?_cons_succ] at this
      rw [← this]; congr 1; omega)
    simp [readRun, h0, hr]

end Sys2Proof.Machine
end

