-- ==== Sys2Proof/Laws/State.lean ====
section
/-! SUPPORT. One lemma per field per update of State, each true by rfl: no later proof unfolds a record update. -/

namespace Sys2Proof.Machine

@[simp] theorem State.finish_wMax (s : State) : s.finish.wMax = s.wMax := rfl
@[simp] theorem State.finish_busy (s : State) : s.finish.busy = false := rfl
@[simp] theorem State.finish_errcode (s : State) : s.finish.errcode = .none := rfl
@[simp] theorem State.finish_aerr (s : State) : s.finish.aerr = s.aerr := rfl
@[simp] theorem State.finish_haz (s : State) : s.finish.haz = s.haz := rfl
@[simp] theorem State.finish_tvalid (s : State) : s.finish.tvalid = s.tvalid := rfl
@[simp] theorem State.finish_gap (s : State) : s.finish.gap = s.gap := rfl
@[simp] theorem State.finish_ordchk (s : State) : s.finish.ordchk = s.ordchk := rfl
@[simp] theorem State.finish_t1 (s : State) : s.finish.t1 = s.t1 := rfl
@[simp] theorem State.finish_t2 (s : State) : s.finish.t2 = s.t2 := rfl
@[simp] theorem State.finish_t3 (s : State) : s.finish.t3 = s.t3 := rfl
@[simp] theorem State.finish_qcode (s : State) : s.finish.qcode = s.qcode := rfl
@[simp] theorem State.finish_olen (s : State) : s.finish.olen = s.olen := rfl
@[simp] theorem State.finish_erridx (s : State) : s.finish.erridx = s.erridx := rfl
@[simp] theorem State.finish_pend (s : State) : s.finish.pend = s.pend := rfl
@[simp] theorem State.finish_ibuf (s : State) : s.finish.ibuf = s.ibuf := rfl
@[simp] theorem State.finish_obuf (s : State) : s.finish.obuf = s.obuf := rfl
@[simp] theorem State.finish_draws (s : State) : s.finish.draws = s.draws := rfl
@[simp] theorem State.finish_hostOps (s : State) : s.finish.hostOps = s.hostOps := rfl
@[simp] theorem State.finish_turns (s : State) : s.finish.turns = s.turns := rfl
@[simp] theorem State.finish_reads (s : State) : s.finish.reads = s.reads := rfl

@[simp] theorem State.raiseError_wMax (s : State) (c : Condition) : (s.raiseError c).wMax = s.wMax := rfl
@[simp] theorem State.raiseError_busy (s : State) (c : Condition) : (s.raiseError c).busy = false := rfl
@[simp] theorem State.raiseError_errcode (s : State) (c : Condition) : (s.raiseError c).errcode = c.code := rfl
@[simp] theorem State.raiseError_aerr (s : State) (c : Condition) : (s.raiseError c).aerr = true := rfl
@[simp] theorem State.raiseError_haz (s : State) (c : Condition) : (s.raiseError c).haz = s.haz := rfl
@[simp] theorem State.raiseError_tvalid (s : State) (c : Condition) : (s.raiseError c).tvalid = s.tvalid := rfl
@[simp] theorem State.raiseError_gap (s : State) (c : Condition) : (s.raiseError c).gap = s.gap := rfl
@[simp] theorem State.raiseError_ordchk (s : State) (c : Condition) : (s.raiseError c).ordchk = s.ordchk := rfl
@[simp] theorem State.raiseError_t1 (s : State) (c : Condition) : (s.raiseError c).t1 = s.t1 := rfl
@[simp] theorem State.raiseError_t2 (s : State) (c : Condition) : (s.raiseError c).t2 = s.t2 := rfl
@[simp] theorem State.raiseError_t3 (s : State) (c : Condition) : (s.raiseError c).t3 = s.t3 := rfl
@[simp] theorem State.raiseError_qcode (s : State) (c : Condition) : (s.raiseError c).qcode = s.qcode := rfl
@[simp] theorem State.raiseError_olen (s : State) (c : Condition) : (s.raiseError c).olen = s.olen := rfl
@[simp] theorem State.raiseError_erridx (s : State) (c : Condition) : (s.raiseError c).erridx = c.erridx s.erridx := rfl
@[simp] theorem State.raiseError_pend (s : State) (c : Condition) : (s.raiseError c).pend = s.pend := rfl
@[simp] theorem State.raiseError_ibuf (s : State) (c : Condition) : (s.raiseError c).ibuf = s.ibuf := rfl
@[simp] theorem State.raiseError_obuf (s : State) (c : Condition) : (s.raiseError c).obuf = s.obuf := rfl
@[simp] theorem State.raiseError_draws (s : State) (c : Condition) : (s.raiseError c).draws = s.draws := rfl
@[simp] theorem State.raiseError_hostOps (s : State) (c : Condition) : (s.raiseError c).hostOps = s.hostOps := rfl
@[simp] theorem State.raiseError_turns (s : State) (c : Condition) : (s.raiseError c).turns = s.turns := rfl
@[simp] theorem State.raiseError_reads (s : State) (c : Condition) : (s.raiseError c).reads = s.reads := rfl

@[simp] theorem State.acceptCommand_wMax (s : State) (d : Word) : (s.acceptCommand d).wMax = s.wMax := rfl
@[simp] theorem State.acceptCommand_busy (s : State) (d : Word) : (s.acceptCommand d).busy = true := rfl
@[simp] theorem State.acceptCommand_errcode (s : State) (d : Word) : (s.acceptCommand d).errcode = s.errcode := rfl
@[simp] theorem State.acceptCommand_aerr (s : State) (d : Word) : (s.acceptCommand d).aerr = s.aerr := rfl
@[simp] theorem State.acceptCommand_haz (s : State) (d : Word) : (s.acceptCommand d).haz = s.haz := rfl
@[simp] theorem State.acceptCommand_tvalid (s : State) (d : Word) : (s.acceptCommand d).tvalid = s.tvalid := rfl
@[simp] theorem State.acceptCommand_gap (s : State) (d : Word) : (s.acceptCommand d).gap = s.gap := rfl
@[simp] theorem State.acceptCommand_ordchk (s : State) (d : Word) : (s.acceptCommand d).ordchk = s.ordchk := rfl
@[simp] theorem State.acceptCommand_t1 (s : State) (d : Word) : (s.acceptCommand d).t1 = s.t1 := rfl
@[simp] theorem State.acceptCommand_t2 (s : State) (d : Word) : (s.acceptCommand d).t2 = s.t2 := rfl
@[simp] theorem State.acceptCommand_t3 (s : State) (d : Word) : (s.acceptCommand d).t3 = s.t3 := rfl
@[simp] theorem State.acceptCommand_qcode (s : State) (d : Word) : (s.acceptCommand d).qcode = s.qcode := rfl
@[simp] theorem State.acceptCommand_olen (s : State) (d : Word) : (s.acceptCommand d).olen = s.olen := rfl
@[simp] theorem State.acceptCommand_erridx (s : State) (d : Word) : (s.acceptCommand d).erridx = s.erridx := rfl
@[simp] theorem State.acceptCommand_pend (s : State) (d : Word) : (s.acceptCommand d).pend = d := rfl
@[simp] theorem State.acceptCommand_ibuf (s : State) (d : Word) : (s.acceptCommand d).ibuf = s.ibuf := rfl
@[simp] theorem State.acceptCommand_obuf (s : State) (d : Word) : (s.acceptCommand d).obuf = s.obuf := rfl
@[simp] theorem State.acceptCommand_draws (s : State) (d : Word) : (s.acceptCommand d).draws = s.draws := rfl
@[simp] theorem State.acceptCommand_hostOps (s : State) (d : Word) : (s.acceptCommand d).hostOps = s.hostOps := rfl
@[simp] theorem State.acceptCommand_turns (s : State) (d : Word) : (s.acceptCommand d).turns = s.turns := rfl
@[simp] theorem State.acceptCommand_reads (s : State) (d : Word) : (s.acceptCommand d).reads = s.reads := rfl

@[simp] theorem State.offerCommand_wMax (s : State) (d : Word) : (s.offerCommand d).wMax = s.wMax := rfl
@[simp] theorem State.offerCommand_busy (s : State) (d : Word) : (s.offerCommand d).busy = true := rfl
@[simp] theorem State.offerCommand_errcode (s : State) (d : Word) : (s.offerCommand d).errcode = s.errcode := rfl
@[simp] theorem State.offerCommand_aerr (s : State) (d : Word) : (s.offerCommand d).aerr = s.aerr := rfl
@[simp] theorem State.offerCommand_haz (s : State) (d : Word) : (s.offerCommand d).haz = s.haz := rfl
@[simp] theorem State.offerCommand_tvalid (s : State) (d : Word) : (s.offerCommand d).tvalid = s.tvalid := rfl
@[simp] theorem State.offerCommand_gap (s : State) (d : Word) : (s.offerCommand d).gap = s.gap := rfl
@[simp] theorem State.offerCommand_ordchk (s : State) (d : Word) : (s.offerCommand d).ordchk = s.ordchk := rfl
@[simp] theorem State.offerCommand_t1 (s : State) (d : Word) : (s.offerCommand d).t1 = s.t1 := rfl
@[simp] theorem State.offerCommand_t2 (s : State) (d : Word) : (s.offerCommand d).t2 = s.t2 := rfl
@[simp] theorem State.offerCommand_t3 (s : State) (d : Word) : (s.offerCommand d).t3 = s.t3 := rfl
@[simp] theorem State.offerCommand_qcode (s : State) (d : Word) : (s.offerCommand d).qcode = s.qcode := rfl
@[simp] theorem State.offerCommand_olen (s : State) (d : Word) : (s.offerCommand d).olen = s.olen := rfl
@[simp] theorem State.offerCommand_erridx (s : State) (d : Word) : (s.offerCommand d).erridx = s.erridx := rfl
@[simp] theorem State.offerCommand_pend (s : State) (d : Word) : (s.offerCommand d).pend = d := rfl
@[simp] theorem State.offerCommand_ibuf (s : State) (d : Word) : (s.offerCommand d).ibuf = s.ibuf := rfl
@[simp] theorem State.offerCommand_obuf (s : State) (d : Word) : (s.offerCommand d).obuf = s.obuf := rfl
@[simp] theorem State.offerCommand_draws (s : State) (d : Word) : (s.offerCommand d).draws = s.draws := rfl
@[simp] theorem State.offerCommand_hostOps (s : State) (d : Word) : (s.offerCommand d).hostOps = s.hostOps := rfl
@[simp] theorem State.offerCommand_turns (s : State) (d : Word) : (s.offerCommand d).turns = .engine :: s.turns := rfl
@[simp] theorem State.offerCommand_reads (s : State) (d : Word) : (s.offerCommand d).reads = s.reads := rfl

@[simp] theorem State.setHaz_wMax (s : State) : s.setHaz.wMax = s.wMax := rfl
@[simp] theorem State.setHaz_busy (s : State) : s.setHaz.busy = s.busy := rfl
@[simp] theorem State.setHaz_errcode (s : State) : s.setHaz.errcode = s.errcode := rfl
@[simp] theorem State.setHaz_aerr (s : State) : s.setHaz.aerr = s.aerr := rfl
@[simp] theorem State.setHaz_haz (s : State) : s.setHaz.haz = true := rfl
@[simp] theorem State.setHaz_tvalid (s : State) : s.setHaz.tvalid = s.tvalid := rfl
@[simp] theorem State.setHaz_gap (s : State) : s.setHaz.gap = s.gap := rfl
@[simp] theorem State.setHaz_ordchk (s : State) : s.setHaz.ordchk = s.ordchk := rfl
@[simp] theorem State.setHaz_t1 (s : State) : s.setHaz.t1 = s.t1 := rfl
@[simp] theorem State.setHaz_t2 (s : State) : s.setHaz.t2 = s.t2 := rfl
@[simp] theorem State.setHaz_t3 (s : State) : s.setHaz.t3 = s.t3 := rfl
@[simp] theorem State.setHaz_qcode (s : State) : s.setHaz.qcode = s.qcode := rfl
@[simp] theorem State.setHaz_olen (s : State) : s.setHaz.olen = s.olen := rfl
@[simp] theorem State.setHaz_erridx (s : State) : s.setHaz.erridx = s.erridx := rfl
@[simp] theorem State.setHaz_pend (s : State) : s.setHaz.pend = s.pend := rfl
@[simp] theorem State.setHaz_ibuf (s : State) : s.setHaz.ibuf = s.ibuf := rfl
@[simp] theorem State.setHaz_obuf (s : State) : s.setHaz.obuf = s.obuf := rfl
@[simp] theorem State.setHaz_draws (s : State) : s.setHaz.draws = s.draws := rfl
@[simp] theorem State.setHaz_hostOps (s : State) : s.setHaz.hostOps = s.hostOps := rfl
@[simp] theorem State.setHaz_turns (s : State) : s.setHaz.turns = s.turns := rfl
@[simp] theorem State.setHaz_reads (s : State) : s.setHaz.reads = s.reads := rfl

@[simp] theorem State.loadThresholds_wMax (s : State) (a b c : Byte) : (s.loadThresholds a b c).wMax = s.wMax := rfl
@[simp] theorem State.loadThresholds_busy (s : State) (a b c : Byte) : (s.loadThresholds a b c).busy = s.busy := rfl
@[simp] theorem State.loadThresholds_errcode (s : State) (a b c : Byte) : (s.loadThresholds a b c).errcode = s.errcode := rfl
@[simp] theorem State.loadThresholds_aerr (s : State) (a b c : Byte) : (s.loadThresholds a b c).aerr = s.aerr := rfl
@[simp] theorem State.loadThresholds_haz (s : State) (a b c : Byte) : (s.loadThresholds a b c).haz = s.haz := rfl
@[simp] theorem State.loadThresholds_tvalid (s : State) (a b c : Byte) : (s.loadThresholds a b c).tvalid = true := rfl
@[simp] theorem State.loadThresholds_gap (s : State) (a b c : Byte) : (s.loadThresholds a b c).gap = s.gap := rfl
@[simp] theorem State.loadThresholds_ordchk (s : State) (a b c : Byte) : (s.loadThresholds a b c).ordchk = s.ordchk := rfl
@[simp] theorem State.loadThresholds_t1 (s : State) (a b c : Byte) : (s.loadThresholds a b c).t1 = a := rfl
@[simp] theorem State.loadThresholds_t2 (s : State) (a b c : Byte) : (s.loadThresholds a b c).t2 = b := rfl
@[simp] theorem State.loadThresholds_t3 (s : State) (a b c : Byte) : (s.loadThresholds a b c).t3 = c := rfl
@[simp] theorem State.loadThresholds_qcode (s : State) (a b c : Byte) : (s.loadThresholds a b c).qcode = s.qcode := rfl
@[simp] theorem State.loadThresholds_olen (s : State) (a b c : Byte) : (s.loadThresholds a b c).olen = s.olen := rfl
@[simp] theorem State.loadThresholds_erridx (s : State) (a b c : Byte) : (s.loadThresholds a b c).erridx = s.erridx := rfl
@[simp] theorem State.loadThresholds_pend (s : State) (a b c : Byte) : (s.loadThresholds a b c).pend = s.pend := rfl
@[simp] theorem State.loadThresholds_ibuf (s : State) (a b c : Byte) : (s.loadThresholds a b c).ibuf = s.ibuf := rfl
@[simp] theorem State.loadThresholds_obuf (s : State) (a b c : Byte) : (s.loadThresholds a b c).obuf = s.obuf := rfl
@[simp] theorem State.loadThresholds_draws (s : State) (a b c : Byte) : (s.loadThresholds a b c).draws = s.draws := rfl
@[simp] theorem State.loadThresholds_hostOps (s : State) (a b c : Byte) : (s.loadThresholds a b c).hostOps = s.hostOps := rfl
@[simp] theorem State.loadThresholds_turns (s : State) (a b c : Byte) : (s.loadThresholds a b c).turns = s.turns := rfl
@[simp] theorem State.loadThresholds_reads (s : State) (a b c : Byte) : (s.loadThresholds a b c).reads = s.reads := rfl

@[simp] theorem State.loadConfig_wMax (s : State) (g o : Bool) : (s.loadConfig g o).wMax = s.wMax := rfl
@[simp] theorem State.loadConfig_busy (s : State) (g o : Bool) : (s.loadConfig g o).busy = s.busy := rfl
@[simp] theorem State.loadConfig_errcode (s : State) (g o : Bool) : (s.loadConfig g o).errcode = s.errcode := rfl
@[simp] theorem State.loadConfig_aerr (s : State) (g o : Bool) : (s.loadConfig g o).aerr = s.aerr := rfl
@[simp] theorem State.loadConfig_haz (s : State) (g o : Bool) : (s.loadConfig g o).haz = s.haz := rfl
@[simp] theorem State.loadConfig_tvalid (s : State) (g o : Bool) : (s.loadConfig g o).tvalid = s.tvalid := rfl
@[simp] theorem State.loadConfig_gap (s : State) (g o : Bool) : (s.loadConfig g o).gap = g := rfl
@[simp] theorem State.loadConfig_ordchk (s : State) (g o : Bool) : (s.loadConfig g o).ordchk = o := rfl
@[simp] theorem State.loadConfig_t1 (s : State) (g o : Bool) : (s.loadConfig g o).t1 = s.t1 := rfl
@[simp] theorem State.loadConfig_t2 (s : State) (g o : Bool) : (s.loadConfig g o).t2 = s.t2 := rfl
@[simp] theorem State.loadConfig_t3 (s : State) (g o : Bool) : (s.loadConfig g o).t3 = s.t3 := rfl
@[simp] theorem State.loadConfig_qcode (s : State) (g o : Bool) : (s.loadConfig g o).qcode = s.qcode := rfl
@[simp] theorem State.loadConfig_olen (s : State) (g o : Bool) : (s.loadConfig g o).olen = s.olen := rfl
@[simp] theorem State.loadConfig_erridx (s : State) (g o : Bool) : (s.loadConfig g o).erridx = s.erridx := rfl
@[simp] theorem State.loadConfig_pend (s : State) (g o : Bool) : (s.loadConfig g o).pend = s.pend := rfl
@[simp] theorem State.loadConfig_ibuf (s : State) (g o : Bool) : (s.loadConfig g o).ibuf = s.ibuf := rfl
@[simp] theorem State.loadConfig_obuf (s : State) (g o : Bool) : (s.loadConfig g o).obuf = s.obuf := rfl
@[simp] theorem State.loadConfig_draws (s : State) (g o : Bool) : (s.loadConfig g o).draws = s.draws := rfl
@[simp] theorem State.loadConfig_hostOps (s : State) (g o : Bool) : (s.loadConfig g o).hostOps = s.hostOps := rfl
@[simp] theorem State.loadConfig_turns (s : State) (g o : Bool) : (s.loadConfig g o).turns = s.turns := rfl
@[simp] theorem State.loadConfig_reads (s : State) (g o : Bool) : (s.loadConfig g o).reads = s.reads := rfl

@[simp] theorem State.storeLine_wMax (s : State) (bs : List Byte) (d : Nat) : (s.storeLine bs d).wMax = s.wMax := rfl
@[simp] theorem State.storeLine_busy (s : State) (bs : List Byte) (d : Nat) : (s.storeLine bs d).busy = s.busy := rfl
@[simp] theorem State.storeLine_errcode (s : State) (bs : List Byte) (d : Nat) : (s.storeLine bs d).errcode = s.errcode := rfl
@[simp] theorem State.storeLine_aerr (s : State) (bs : List Byte) (d : Nat) : (s.storeLine bs d).aerr = s.aerr := rfl
@[simp] theorem State.storeLine_haz (s : State) (bs : List Byte) (d : Nat) : (s.storeLine bs d).haz = s.haz := rfl
@[simp] theorem State.storeLine_tvalid (s : State) (bs : List Byte) (d : Nat) : (s.storeLine bs d).tvalid = s.tvalid := rfl
@[simp] theorem State.storeLine_gap (s : State) (bs : List Byte) (d : Nat) : (s.storeLine bs d).gap = s.gap := rfl
@[simp] theorem State.storeLine_ordchk (s : State) (bs : List Byte) (d : Nat) : (s.storeLine bs d).ordchk = s.ordchk := rfl
@[simp] theorem State.storeLine_t1 (s : State) (bs : List Byte) (d : Nat) : (s.storeLine bs d).t1 = s.t1 := rfl
@[simp] theorem State.storeLine_t2 (s : State) (bs : List Byte) (d : Nat) : (s.storeLine bs d).t2 = s.t2 := rfl
@[simp] theorem State.storeLine_t3 (s : State) (bs : List Byte) (d : Nat) : (s.storeLine bs d).t3 = s.t3 := rfl
@[simp] theorem State.storeLine_qcode (s : State) (bs : List Byte) (d : Nat) : (s.storeLine bs d).qcode = s.qcode := rfl
@[simp] theorem State.storeLine_olen (s : State) (bs : List Byte) (d : Nat) : (s.storeLine bs d).olen = s.olen := rfl
@[simp] theorem State.storeLine_erridx (s : State) (bs : List Byte) (d : Nat) : (s.storeLine bs d).erridx = s.erridx := rfl
@[simp] theorem State.storeLine_pend (s : State) (bs : List Byte) (d : Nat) : (s.storeLine bs d).pend = s.pend := rfl
@[simp] theorem State.storeLine_ibuf (s : State) (bs : List Byte) (d : Nat) : (s.storeLine bs d).ibuf = s.ibuf := rfl
@[simp] theorem State.storeLine_obuf (s : State) (bs : List Byte) (d : Nat) : (s.storeLine bs d).obuf = Memory.setRun s.obuf 0 bs := rfl
@[simp] theorem State.storeLine_draws (s : State) (bs : List Byte) (d : Nat) : (s.storeLine bs d).draws = d := rfl
@[simp] theorem State.storeLine_hostOps (s : State) (bs : List Byte) (d : Nat) : (s.storeLine bs d).hostOps = s.hostOps := rfl
@[simp] theorem State.storeLine_turns (s : State) (bs : List Byte) (d : Nat) : (s.storeLine bs d).turns = s.turns := rfl
@[simp] theorem State.storeLine_reads (s : State) (bs : List Byte) (d : Nat) : (s.storeLine bs d).reads = s.reads := rfl

@[simp] theorem State.resetEvent_wMax (s : State) : s.resetEvent.wMax = s.wMax := rfl
@[simp] theorem State.resetEvent_busy (s : State) : s.resetEvent.busy = false := rfl
@[simp] theorem State.resetEvent_errcode (s : State) : s.resetEvent.errcode = .none := rfl
@[simp] theorem State.resetEvent_aerr (s : State) : s.resetEvent.aerr = false := rfl
@[simp] theorem State.resetEvent_haz (s : State) : s.resetEvent.haz = false := rfl
@[simp] theorem State.resetEvent_tvalid (s : State) : s.resetEvent.tvalid = false := rfl
@[simp] theorem State.resetEvent_gap (s : State) : s.resetEvent.gap = false := rfl
@[simp] theorem State.resetEvent_ordchk (s : State) : s.resetEvent.ordchk = false := rfl
@[simp] theorem State.resetEvent_t1 (s : State) : s.resetEvent.t1 = 0 := rfl
@[simp] theorem State.resetEvent_t2 (s : State) : s.resetEvent.t2 = 0 := rfl
@[simp] theorem State.resetEvent_t3 (s : State) : s.resetEvent.t3 = 0 := rfl
@[simp] theorem State.resetEvent_qcode (s : State) : s.resetEvent.qcode = 0 := rfl
@[simp] theorem State.resetEvent_olen (s : State) : s.resetEvent.olen = 0 := rfl
@[simp] theorem State.resetEvent_erridx (s : State) : s.resetEvent.erridx = 0 := rfl
@[simp] theorem State.resetEvent_pend (s : State) : s.resetEvent.pend = 0 := rfl
@[simp] theorem State.resetEvent_ibuf (s : State) : s.resetEvent.ibuf = [] := rfl
@[simp] theorem State.resetEvent_obuf (s : State) : s.resetEvent.obuf = [] := rfl
@[simp] theorem State.resetEvent_draws (s : State) : s.resetEvent.draws = s.draws := rfl
@[simp] theorem State.resetEvent_hostOps (s : State) : s.resetEvent.hostOps = s.hostOps := rfl
@[simp] theorem State.resetEvent_turns (s : State) : s.resetEvent.turns = s.turns := rfl
@[simp] theorem State.resetEvent_reads (s : State) : s.resetEvent.reads = s.reads := rfl

@[simp] theorem State.endTurn_wMax (s : State) : s.endTurn.wMax = s.wMax := rfl
@[simp] theorem State.endTurn_busy (s : State) : s.endTurn.busy = s.busy := rfl
@[simp] theorem State.endTurn_errcode (s : State) : s.endTurn.errcode = s.errcode := rfl
@[simp] theorem State.endTurn_aerr (s : State) : s.endTurn.aerr = s.aerr := rfl
@[simp] theorem State.endTurn_haz (s : State) : s.endTurn.haz = s.haz := rfl
@[simp] theorem State.endTurn_tvalid (s : State) : s.endTurn.tvalid = s.tvalid := rfl
@[simp] theorem State.endTurn_gap (s : State) : s.endTurn.gap = s.gap := rfl
@[simp] theorem State.endTurn_ordchk (s : State) : s.endTurn.ordchk = s.ordchk := rfl
@[simp] theorem State.endTurn_t1 (s : State) : s.endTurn.t1 = s.t1 := rfl
@[simp] theorem State.endTurn_t2 (s : State) : s.endTurn.t2 = s.t2 := rfl
@[simp] theorem State.endTurn_t3 (s : State) : s.endTurn.t3 = s.t3 := rfl
@[simp] theorem State.endTurn_qcode (s : State) : s.endTurn.qcode = s.qcode := rfl
@[simp] theorem State.endTurn_olen (s : State) : s.endTurn.olen = s.olen := rfl
@[simp] theorem State.endTurn_erridx (s : State) : s.endTurn.erridx = s.erridx := rfl
@[simp] theorem State.endTurn_pend (s : State) : s.endTurn.pend = s.pend := rfl
@[simp] theorem State.endTurn_ibuf (s : State) : s.endTurn.ibuf = s.ibuf := rfl
@[simp] theorem State.endTurn_obuf (s : State) : s.endTurn.obuf = s.obuf := rfl
@[simp] theorem State.endTurn_draws (s : State) : s.endTurn.draws = s.draws := rfl
@[simp] theorem State.endTurn_hostOps (s : State) : s.endTurn.hostOps = s.hostOps := rfl
@[simp] theorem State.endTurn_turns (s : State) : s.endTurn.turns = s.turns.tail := rfl
@[simp] theorem State.endTurn_reads (s : State) : s.endTurn.reads = s.reads := rfl

@[simp] theorem State.logRead_wMax (s : State) (a : PortAddr) (d : Word) : (s.logRead a d).wMax = s.wMax := rfl
@[simp] theorem State.logRead_busy (s : State) (a : PortAddr) (d : Word) : (s.logRead a d).busy = s.busy := rfl
@[simp] theorem State.logRead_errcode (s : State) (a : PortAddr) (d : Word) : (s.logRead a d).errcode = s.errcode := rfl
@[simp] theorem State.logRead_aerr (s : State) (a : PortAddr) (d : Word) : (s.logRead a d).aerr = s.aerr := rfl
@[simp] theorem State.logRead_haz (s : State) (a : PortAddr) (d : Word) : (s.logRead a d).haz = s.haz := rfl
@[simp] theorem State.logRead_tvalid (s : State) (a : PortAddr) (d : Word) : (s.logRead a d).tvalid = s.tvalid := rfl
@[simp] theorem State.logRead_gap (s : State) (a : PortAddr) (d : Word) : (s.logRead a d).gap = s.gap := rfl
@[simp] theorem State.logRead_ordchk (s : State) (a : PortAddr) (d : Word) : (s.logRead a d).ordchk = s.ordchk := rfl
@[simp] theorem State.logRead_t1 (s : State) (a : PortAddr) (d : Word) : (s.logRead a d).t1 = s.t1 := rfl
@[simp] theorem State.logRead_t2 (s : State) (a : PortAddr) (d : Word) : (s.logRead a d).t2 = s.t2 := rfl
@[simp] theorem State.logRead_t3 (s : State) (a : PortAddr) (d : Word) : (s.logRead a d).t3 = s.t3 := rfl
@[simp] theorem State.logRead_qcode (s : State) (a : PortAddr) (d : Word) : (s.logRead a d).qcode = s.qcode := rfl
@[simp] theorem State.logRead_olen (s : State) (a : PortAddr) (d : Word) : (s.logRead a d).olen = s.olen := rfl
@[simp] theorem State.logRead_erridx (s : State) (a : PortAddr) (d : Word) : (s.logRead a d).erridx = s.erridx := rfl
@[simp] theorem State.logRead_pend (s : State) (a : PortAddr) (d : Word) : (s.logRead a d).pend = s.pend := rfl
@[simp] theorem State.logRead_ibuf (s : State) (a : PortAddr) (d : Word) : (s.logRead a d).ibuf = s.ibuf := rfl
@[simp] theorem State.logRead_obuf (s : State) (a : PortAddr) (d : Word) : (s.logRead a d).obuf = s.obuf := rfl
@[simp] theorem State.logRead_draws (s : State) (a : PortAddr) (d : Word) : (s.logRead a d).draws = s.draws := rfl
@[simp] theorem State.logRead_hostOps (s : State) (a : PortAddr) (d : Word) : (s.logRead a d).hostOps = s.hostOps := rfl
@[simp] theorem State.logRead_turns (s : State) (a : PortAddr) (d : Word) : (s.logRead a d).turns = s.turns := rfl
@[simp] theorem State.logRead_reads (s : State) (a : PortAddr) (d : Word) : (s.logRead a d).reads = (a, d) :: s.reads := rfl

@[simp] theorem State.setQcode_wMax (s : State) (c : Code) : (s.setQcode c).wMax = s.wMax := rfl
@[simp] theorem State.setQcode_busy (s : State) (c : Code) : (s.setQcode c).busy = s.busy := rfl
@[simp] theorem State.setQcode_errcode (s : State) (c : Code) : (s.setQcode c).errcode = s.errcode := rfl
@[simp] theorem State.setQcode_aerr (s : State) (c : Code) : (s.setQcode c).aerr = s.aerr := rfl
@[simp] theorem State.setQcode_haz (s : State) (c : Code) : (s.setQcode c).haz = s.haz := rfl
@[simp] theorem State.setQcode_tvalid (s : State) (c : Code) : (s.setQcode c).tvalid = s.tvalid := rfl
@[simp] theorem State.setQcode_gap (s : State) (c : Code) : (s.setQcode c).gap = s.gap := rfl
@[simp] theorem State.setQcode_ordchk (s : State) (c : Code) : (s.setQcode c).ordchk = s.ordchk := rfl
@[simp] theorem State.setQcode_t1 (s : State) (c : Code) : (s.setQcode c).t1 = s.t1 := rfl
@[simp] theorem State.setQcode_t2 (s : State) (c : Code) : (s.setQcode c).t2 = s.t2 := rfl
@[simp] theorem State.setQcode_t3 (s : State) (c : Code) : (s.setQcode c).t3 = s.t3 := rfl
@[simp] theorem State.setQcode_qcode (s : State) (c : Code) : (s.setQcode c).qcode = c := rfl
@[simp] theorem State.setQcode_olen (s : State) (c : Code) : (s.setQcode c).olen = s.olen := rfl
@[simp] theorem State.setQcode_erridx (s : State) (c : Code) : (s.setQcode c).erridx = s.erridx := rfl
@[simp] theorem State.setQcode_pend (s : State) (c : Code) : (s.setQcode c).pend = s.pend := rfl
@[simp] theorem State.setQcode_ibuf (s : State) (c : Code) : (s.setQcode c).ibuf = s.ibuf := rfl
@[simp] theorem State.setQcode_obuf (s : State) (c : Code) : (s.setQcode c).obuf = s.obuf := rfl
@[simp] theorem State.setQcode_draws (s : State) (c : Code) : (s.setQcode c).draws = s.draws := rfl
@[simp] theorem State.setQcode_hostOps (s : State) (c : Code) : (s.setQcode c).hostOps = s.hostOps := rfl
@[simp] theorem State.setQcode_turns (s : State) (c : Code) : (s.setQcode c).turns = s.turns := rfl
@[simp] theorem State.setQcode_reads (s : State) (c : Code) : (s.setQcode c).reads = s.reads := rfl

@[simp] theorem State.setOlen_wMax (s : State) (m : Len) : (s.setOlen m).wMax = s.wMax := rfl
@[simp] theorem State.setOlen_busy (s : State) (m : Len) : (s.setOlen m).busy = s.busy := rfl
@[simp] theorem State.setOlen_errcode (s : State) (m : Len) : (s.setOlen m).errcode = s.errcode := rfl
@[simp] theorem State.setOlen_aerr (s : State) (m : Len) : (s.setOlen m).aerr = s.aerr := rfl
@[simp] theorem State.setOlen_haz (s : State) (m : Len) : (s.setOlen m).haz = s.haz := rfl
@[simp] theorem State.setOlen_tvalid (s : State) (m : Len) : (s.setOlen m).tvalid = s.tvalid := rfl
@[simp] theorem State.setOlen_gap (s : State) (m : Len) : (s.setOlen m).gap = s.gap := rfl
@[simp] theorem State.setOlen_ordchk (s : State) (m : Len) : (s.setOlen m).ordchk = s.ordchk := rfl
@[simp] theorem State.setOlen_t1 (s : State) (m : Len) : (s.setOlen m).t1 = s.t1 := rfl
@[simp] theorem State.setOlen_t2 (s : State) (m : Len) : (s.setOlen m).t2 = s.t2 := rfl
@[simp] theorem State.setOlen_t3 (s : State) (m : Len) : (s.setOlen m).t3 = s.t3 := rfl
@[simp] theorem State.setOlen_qcode (s : State) (m : Len) : (s.setOlen m).qcode = s.qcode := rfl
@[simp] theorem State.setOlen_olen (s : State) (m : Len) : (s.setOlen m).olen = m := rfl
@[simp] theorem State.setOlen_erridx (s : State) (m : Len) : (s.setOlen m).erridx = s.erridx := rfl
@[simp] theorem State.setOlen_pend (s : State) (m : Len) : (s.setOlen m).pend = s.pend := rfl
@[simp] theorem State.setOlen_ibuf (s : State) (m : Len) : (s.setOlen m).ibuf = s.ibuf := rfl
@[simp] theorem State.setOlen_obuf (s : State) (m : Len) : (s.setOlen m).obuf = s.obuf := rfl
@[simp] theorem State.setOlen_draws (s : State) (m : Len) : (s.setOlen m).draws = s.draws := rfl
@[simp] theorem State.setOlen_hostOps (s : State) (m : Len) : (s.setOlen m).hostOps = s.hostOps := rfl
@[simp] theorem State.setOlen_turns (s : State) (m : Len) : (s.setOlen m).turns = s.turns := rfl
@[simp] theorem State.setOlen_reads (s : State) (m : Len) : (s.setOlen m).reads = s.reads := rfl

@[simp] theorem State.setIbuf_wMax (s : State) (m : Memory) : (s.setIbuf m).wMax = s.wMax := rfl
@[simp] theorem State.setIbuf_busy (s : State) (m : Memory) : (s.setIbuf m).busy = s.busy := rfl
@[simp] theorem State.setIbuf_errcode (s : State) (m : Memory) : (s.setIbuf m).errcode = s.errcode := rfl
@[simp] theorem State.setIbuf_aerr (s : State) (m : Memory) : (s.setIbuf m).aerr = s.aerr := rfl
@[simp] theorem State.setIbuf_haz (s : State) (m : Memory) : (s.setIbuf m).haz = s.haz := rfl
@[simp] theorem State.setIbuf_tvalid (s : State) (m : Memory) : (s.setIbuf m).tvalid = s.tvalid := rfl
@[simp] theorem State.setIbuf_gap (s : State) (m : Memory) : (s.setIbuf m).gap = s.gap := rfl
@[simp] theorem State.setIbuf_ordchk (s : State) (m : Memory) : (s.setIbuf m).ordchk = s.ordchk := rfl
@[simp] theorem State.setIbuf_t1 (s : State) (m : Memory) : (s.setIbuf m).t1 = s.t1 := rfl
@[simp] theorem State.setIbuf_t2 (s : State) (m : Memory) : (s.setIbuf m).t2 = s.t2 := rfl
@[simp] theorem State.setIbuf_t3 (s : State) (m : Memory) : (s.setIbuf m).t3 = s.t3 := rfl
@[simp] theorem State.setIbuf_qcode (s : State) (m : Memory) : (s.setIbuf m).qcode = s.qcode := rfl
@[simp] theorem State.setIbuf_olen (s : State) (m : Memory) : (s.setIbuf m).olen = s.olen := rfl
@[simp] theorem State.setIbuf_erridx (s : State) (m : Memory) : (s.setIbuf m).erridx = s.erridx := rfl
@[simp] theorem State.setIbuf_pend (s : State) (m : Memory) : (s.setIbuf m).pend = s.pend := rfl
@[simp] theorem State.setIbuf_ibuf (s : State) (m : Memory) : (s.setIbuf m).ibuf = m := rfl
@[simp] theorem State.setIbuf_obuf (s : State) (m : Memory) : (s.setIbuf m).obuf = s.obuf := rfl
@[simp] theorem State.setIbuf_draws (s : State) (m : Memory) : (s.setIbuf m).draws = s.draws := rfl
@[simp] theorem State.setIbuf_hostOps (s : State) (m : Memory) : (s.setIbuf m).hostOps = s.hostOps := rfl
@[simp] theorem State.setIbuf_turns (s : State) (m : Memory) : (s.setIbuf m).turns = s.turns := rfl
@[simp] theorem State.setIbuf_reads (s : State) (m : Memory) : (s.setIbuf m).reads = s.reads := rfl

@[simp] theorem State.clearSticky_wMax (s : State) (a h : Bool) : (s.clearSticky a h).wMax = s.wMax := rfl
@[simp] theorem State.clearSticky_busy (s : State) (a h : Bool) : (s.clearSticky a h).busy = s.busy := rfl
@[simp] theorem State.clearSticky_errcode (s : State) (a h : Bool) : (s.clearSticky a h).errcode = s.errcode := rfl
@[simp] theorem State.clearSticky_aerr (s : State) (a h : Bool) : (s.clearSticky a h).aerr = (s.aerr && !a) := rfl
@[simp] theorem State.clearSticky_haz (s : State) (a h : Bool) : (s.clearSticky a h).haz = (s.haz && !h) := rfl
@[simp] theorem State.clearSticky_tvalid (s : State) (a h : Bool) : (s.clearSticky a h).tvalid = s.tvalid := rfl
@[simp] theorem State.clearSticky_gap (s : State) (a h : Bool) : (s.clearSticky a h).gap = s.gap := rfl
@[simp] theorem State.clearSticky_ordchk (s : State) (a h : Bool) : (s.clearSticky a h).ordchk = s.ordchk := rfl
@[simp] theorem State.clearSticky_t1 (s : State) (a h : Bool) : (s.clearSticky a h).t1 = s.t1 := rfl
@[simp] theorem State.clearSticky_t2 (s : State) (a h : Bool) : (s.clearSticky a h).t2 = s.t2 := rfl
@[simp] theorem State.clearSticky_t3 (s : State) (a h : Bool) : (s.clearSticky a h).t3 = s.t3 := rfl
@[simp] theorem State.clearSticky_qcode (s : State) (a h : Bool) : (s.clearSticky a h).qcode = s.qcode := rfl
@[simp] theorem State.clearSticky_olen (s : State) (a h : Bool) : (s.clearSticky a h).olen = s.olen := rfl
@[simp] theorem State.clearSticky_erridx (s : State) (a h : Bool) : (s.clearSticky a h).erridx = s.erridx := rfl
@[simp] theorem State.clearSticky_pend (s : State) (a h : Bool) : (s.clearSticky a h).pend = s.pend := rfl
@[simp] theorem State.clearSticky_ibuf (s : State) (a h : Bool) : (s.clearSticky a h).ibuf = s.ibuf := rfl
@[simp] theorem State.clearSticky_obuf (s : State) (a h : Bool) : (s.clearSticky a h).obuf = s.obuf := rfl
@[simp] theorem State.clearSticky_draws (s : State) (a h : Bool) : (s.clearSticky a h).draws = s.draws := rfl
@[simp] theorem State.clearSticky_hostOps (s : State) (a h : Bool) : (s.clearSticky a h).hostOps = s.hostOps := rfl
@[simp] theorem State.clearSticky_turns (s : State) (a h : Bool) : (s.clearSticky a h).turns = s.turns := rfl
@[simp] theorem State.clearSticky_reads (s : State) (a h : Bool) : (s.clearSticky a h).reads = s.reads := rfl

@[simp] theorem State.setDraws_wMax (s : State) (d : Nat) : (s.setDraws d).wMax = s.wMax := rfl
@[simp] theorem State.setDraws_busy (s : State) (d : Nat) : (s.setDraws d).busy = s.busy := rfl
@[simp] theorem State.setDraws_errcode (s : State) (d : Nat) : (s.setDraws d).errcode = s.errcode := rfl
@[simp] theorem State.setDraws_aerr (s : State) (d : Nat) : (s.setDraws d).aerr = s.aerr := rfl
@[simp] theorem State.setDraws_haz (s : State) (d : Nat) : (s.setDraws d).haz = s.haz := rfl
@[simp] theorem State.setDraws_tvalid (s : State) (d : Nat) : (s.setDraws d).tvalid = s.tvalid := rfl
@[simp] theorem State.setDraws_gap (s : State) (d : Nat) : (s.setDraws d).gap = s.gap := rfl
@[simp] theorem State.setDraws_ordchk (s : State) (d : Nat) : (s.setDraws d).ordchk = s.ordchk := rfl
@[simp] theorem State.setDraws_t1 (s : State) (d : Nat) : (s.setDraws d).t1 = s.t1 := rfl
@[simp] theorem State.setDraws_t2 (s : State) (d : Nat) : (s.setDraws d).t2 = s.t2 := rfl
@[simp] theorem State.setDraws_t3 (s : State) (d : Nat) : (s.setDraws d).t3 = s.t3 := rfl
@[simp] theorem State.setDraws_qcode (s : State) (d : Nat) : (s.setDraws d).qcode = s.qcode := rfl
@[simp] theorem State.setDraws_olen (s : State) (d : Nat) : (s.setDraws d).olen = s.olen := rfl
@[simp] theorem State.setDraws_erridx (s : State) (d : Nat) : (s.setDraws d).erridx = s.erridx := rfl
@[simp] theorem State.setDraws_pend (s : State) (d : Nat) : (s.setDraws d).pend = s.pend := rfl
@[simp] theorem State.setDraws_ibuf (s : State) (d : Nat) : (s.setDraws d).ibuf = s.ibuf := rfl
@[simp] theorem State.setDraws_obuf (s : State) (d : Nat) : (s.setDraws d).obuf = s.obuf := rfl
@[simp] theorem State.setDraws_draws (s : State) (d : Nat) : (s.setDraws d).draws = d := rfl
@[simp] theorem State.setDraws_hostOps (s : State) (d : Nat) : (s.setDraws d).hostOps = s.hostOps := rfl
@[simp] theorem State.setDraws_turns (s : State) (d : Nat) : (s.setDraws d).turns = s.turns := rfl
@[simp] theorem State.setDraws_reads (s : State) (d : Nat) : (s.setDraws d).reads = s.reads := rfl

@[simp] theorem State.setHostOps_wMax (s : State) (ops : List HostOp) : (s.setHostOps ops).wMax = s.wMax := rfl
@[simp] theorem State.setHostOps_busy (s : State) (ops : List HostOp) : (s.setHostOps ops).busy = s.busy := rfl
@[simp] theorem State.setHostOps_errcode (s : State) (ops : List HostOp) : (s.setHostOps ops).errcode = s.errcode := rfl
@[simp] theorem State.setHostOps_aerr (s : State) (ops : List HostOp) : (s.setHostOps ops).aerr = s.aerr := rfl
@[simp] theorem State.setHostOps_haz (s : State) (ops : List HostOp) : (s.setHostOps ops).haz = s.haz := rfl
@[simp] theorem State.setHostOps_tvalid (s : State) (ops : List HostOp) : (s.setHostOps ops).tvalid = s.tvalid := rfl
@[simp] theorem State.setHostOps_gap (s : State) (ops : List HostOp) : (s.setHostOps ops).gap = s.gap := rfl
@[simp] theorem State.setHostOps_ordchk (s : State) (ops : List HostOp) : (s.setHostOps ops).ordchk = s.ordchk := rfl
@[simp] theorem State.setHostOps_t1 (s : State) (ops : List HostOp) : (s.setHostOps ops).t1 = s.t1 := rfl
@[simp] theorem State.setHostOps_t2 (s : State) (ops : List HostOp) : (s.setHostOps ops).t2 = s.t2 := rfl
@[simp] theorem State.setHostOps_t3 (s : State) (ops : List HostOp) : (s.setHostOps ops).t3 = s.t3 := rfl
@[simp] theorem State.setHostOps_qcode (s : State) (ops : List HostOp) : (s.setHostOps ops).qcode = s.qcode := rfl
@[simp] theorem State.setHostOps_olen (s : State) (ops : List HostOp) : (s.setHostOps ops).olen = s.olen := rfl
@[simp] theorem State.setHostOps_erridx (s : State) (ops : List HostOp) : (s.setHostOps ops).erridx = s.erridx := rfl
@[simp] theorem State.setHostOps_pend (s : State) (ops : List HostOp) : (s.setHostOps ops).pend = s.pend := rfl
@[simp] theorem State.setHostOps_ibuf (s : State) (ops : List HostOp) : (s.setHostOps ops).ibuf = s.ibuf := rfl
@[simp] theorem State.setHostOps_obuf (s : State) (ops : List HostOp) : (s.setHostOps ops).obuf = s.obuf := rfl
@[simp] theorem State.setHostOps_draws (s : State) (ops : List HostOp) : (s.setHostOps ops).draws = s.draws := rfl
@[simp] theorem State.setHostOps_hostOps (s : State) (ops : List HostOp) : (s.setHostOps ops).hostOps = ops := rfl
@[simp] theorem State.setHostOps_turns (s : State) (ops : List HostOp) : (s.setHostOps ops).turns = s.turns := rfl
@[simp] theorem State.setHostOps_reads (s : State) (ops : List HostOp) : (s.setHostOps ops).reads = s.reads := rfl

end Sys2Proof.Machine
end

