-- ==== Sys2Proof/Laws/Exec.lean ====
section
/-! SUPPORT. What each shared operation of the commands, and each meaning, can do: cited by the proofs instead of
unfolding the meanings. -/

namespace Sys2Proof.Machine

/-- The unwritten bytes of a run, its first byte apart. -/
theorem unwrittenBytes_succ (m : Memory) (i n : Nat) :
    unwrittenBytes m i (n + 1) = (if Memory.get m i = none then 1 else 0) + unwrittenBytes m (i + 1) n := by
  rw [unwrittenBytes, List.range'_succ, List.countP_cons]
  simp [unwrittenBytes, Nat.add_comm]

/-- An unwritten byte of a run is counted in every longer run. -/
theorem unwrittenBytes_lt {m : Memory} {i j n : Nat} (hj : j < n) (h : Memory.get m (i + j) = none) :
    unwrittenBytes m i j < unwrittenBytes m i n := by
  induction j generalizing i n with
  | zero =>
    obtain ⟨n, rfl⟩ := Nat.exists_eq_succ_of_ne_zero (Nat.ne_of_gt hj)
    rw [unwrittenBytes_succ, if_pos (by simpa using h)]
    simp [unwrittenBytes]
  | succ j ih =>
    obtain ⟨n, rfl⟩ := Nat.exists_eq_succ_of_ne_zero (Nat.ne_of_gt (Nat.zero_lt_of_lt hj))
    have e : i + (j + 1) = i + 1 + j := by omega
    rw [unwrittenBytes_succ, unwrittenBytes_succ]
    exact Nat.add_lt_add_left (ih (by omega) (e ▸ h)) _

/-- A run draws as often as it has unwritten bytes (10_state.md R40). -/
theorem readRun_draws (m : Memory) (i n draws : Nat) :
    (readRun m i n draws).2 = draws + unwrittenBytes m i n := by
  induction n generalizing i draws with
  | zero => rfl
  | succ n ih =>
    rw [unwrittenBytes_succ, readRun, ih]
    cases h : Memory.get m i with
    | none => simp [readByte_unwritten h, Nat.add_assoc]
    | some b => simp [readByte_written h]

/-- An unwritten byte of the run reads as the free byte next after the draws of the bytes before it. -/
theorem readRun_getElem?_unwritten {m : Memory} {i n draws k : Nat} (hk : k < n) (h : Memory.get m (i + k) = none) :
    (readRun m i n draws).1[k]? = some (Config.freeByte (draws + unwrittenBytes m i k)) := by
  obtain ⟨n, rfl⟩ := Nat.exists_eq_succ_of_ne_zero (Nat.ne_of_gt (Nat.zero_lt_of_lt hk))
  induction k generalizing i n draws with
  | zero => simp [readRun, readByte_unwritten (by simpa using h), unwrittenBytes]
  | succ k ih =>
    have e : i + (k + 1) = i + 1 + k := by omega
    obtain ⟨n, rfl⟩ := Nat.exists_eq_succ_of_ne_zero (show n ≠ 0 by omega)
    rw [readRun, List.getElem?_cons_succ, ih (e ▸ h) n (by omega), unwrittenBytes_succ]
    cases h : Memory.get m i with
    | none => simp [readByte_unwritten h, Nat.add_assoc]
    | some b => simp [readByte_written h]

/-- QC on the numbers of its inputs (41_quantizer.md R140). -/
theorem classify_toNat (x t1 t2 t3 : Byte) :
    classify x t1 t2 t3 =
      if x.toNat = 0 then .code 0
      else if t1.toNat < x.toNat ∧ x.toNat ≤ t2.toNat then .code 1
      else if t2.toNat < x.toNat ∧ x.toNat ≤ t3.toNat then .code 2
      else if t3.toNat < x.toNat then .code 3
      else .gap := by
  have hx : x = 0 ↔ x.toNat = 0 := BitVec.toNat_inj.symm
  have h255 : x.toNat ≤ (255 : Byte).toNat := Nat.le_of_lt_succ x.isLt
  simp only [classify, hx, BitVec.lt_def, BitVec.le_def, h255, and_true]

/-- QC on a sample, as the gap policy sees it. -/
theorem codeOf_eq (s : State) (x : Byte) (i : Nat) :
    codeOf s x i =
      if classify x s.t1 s.t2 s.t3 = .gap ∧ s.gap = false then .error (.invalidSample (BitVec.ofNat 16 i))
      else .ok (classify x s.t1 s.t2 s.t3).codeOrZero := by
  unfold codeOf
  cases h : classify x s.t1 s.t2 s.t3 <;> cases hg : s.gap <;> simp [SampleClass.codeOrZero]

/-- No sample raises: the codes of a line, one for each sample. -/
theorem codesFrom_ok {s : State} (xs : List Byte) (i : Nat)
    (h : s.gap = true ∨ ∀ x ∈ xs, classify x s.t1 s.t2 s.t3 ≠ .gap) :
    codesFrom s i xs = .ok (xs.map (fun x => (classify x s.t1 s.t2 s.t3).codeOrZero)) := by
  induction xs generalizing i with
  | nil => rfl
  | cons x xs ih =>
    have hx : ¬ (classify x s.t1 s.t2 s.t3 = .gap ∧ s.gap = false) := by
      rintro ⟨hc, hg⟩
      rcases h with h | h
      · simp [hg] at h
      · exact h x (by simp) hc
    have hr := ih (i + 1) (h.imp_right (fun h y hy => h y (by simp [hy])))
    simp only [codesFrom, codeOf_eq, if_neg hx, hr, List.map_cons]

/-- The first gap of a line under policy (a) is the sample that raises. -/
theorem codesFrom_error {s : State} (xs : List Byte) (i j : Nat) (hg : s.gap = false) {x : Byte}
    (hx : xs[j]? = some x) (hgap : classify x s.t1 s.t2 s.t3 = .gap)
    (hlow : ∀ k y, k < j → xs[k]? = some y → classify y s.t1 s.t2 s.t3 ≠ .gap) :
    codesFrom s i xs = .error (.invalidSample (BitVec.ofNat 16 (i + j))) := by
  induction xs generalizing i j with
  | nil => simp at hx
  | cons y ys ih =>
    cases j with
    | zero =>
      obtain rfl : y = x := by simpa using hx
      simp [codesFrom, codeOf_eq, hgap, hg]
    | succ j =>
      have hy := hlow 0 y (by omega) (by simp)
      have := ih (i + 1) j (by simpa using hx) (fun k z hk hz => hlow (k + 1) z (by omega) (by simpa using hz))
      simp [codesFrom, codeOf_eq, hy, this, Nat.add_comm, Nat.add_left_comm]

/-- A line that raises raises an InvalidSample at its first gap, under policy (a). -/
theorem codesFrom_error_inv {s : State} {xs : List Byte} {i : Nat} {e : Condition} (h : codesFrom s i xs = .error e) :
    ∃ j, j < xs.length ∧ e = .invalidSample (BitVec.ofNat 16 (i + j)) ∧ s.gap = false ∧
      (∃ x, xs[j]? = some x ∧ classify x s.t1 s.t2 s.t3 = .gap) ∧
      ∀ k y, k < j → xs[k]? = some y → classify y s.t1 s.t2 s.t3 ≠ .gap := by
  induction xs generalizing i with
  | nil => simp [codesFrom] at h
  | cons x xs ih =>
    rw [codesFrom, codeOf_eq] at h
    by_cases hx : classify x s.t1 s.t2 s.t3 = .gap ∧ s.gap = false
    · simp only [if_pos hx, Except.error.injEq] at h
      exact ⟨0, by simp, by simp [← h], hx.2, ⟨x, by simp, hx.1⟩, fun k _ hk => by omega⟩
    · simp only [if_neg hx] at h
      cases hr : codesFrom s (i + 1) xs with
      | ok cs => simp [hr] at h
      | error e' =>
        simp only [hr, Except.error.injEq] at h
        subst h
        obtain ⟨j, hj, he, hg, ⟨y, hy, hgap⟩, hlow⟩ := ih hr
        refine ⟨j + 1, by simpa using hj, by rw [he]; congr 2; omega, hg, ⟨y, by simpa using hy, hgap⟩, ?_⟩
        intro k z hk hz
        cases k with
        | zero =>
          obtain rfl : x = z := by simpa using hz
          exact fun hc => hx ⟨hc, hg⟩
        | succ k => exact hlow k z (by omega) (by simpa using hz)

/-- A line that does not raise: its codes, and no gap under policy (a). -/
theorem codesFrom_ok_inv {s : State} {xs : List Byte} {i : Nat} {cs : List Code} (h : codesFrom s i xs = .ok cs) :
    cs = xs.map (fun x => (classify x s.t1 s.t2 s.t3).codeOrZero) ∧
      (s.gap = true ∨ ∀ x ∈ xs, classify x s.t1 s.t2 s.t3 ≠ .gap) := by
  have hn : s.gap = true ∨ ∀ x ∈ xs, classify x s.t1 s.t2 s.t3 ≠ .gap := by
    induction xs generalizing i cs with
    | nil => simp
    | cons x xs ih =>
      rw [codesFrom, codeOf_eq] at h
      by_cases hx : classify x s.t1 s.t2 s.t3 = .gap ∧ s.gap = false
      · simp [hx] at h
      · simp only [if_neg hx] at h
        cases hr : codesFrom s (i + 1) xs with
        | error e => simp [hr] at h
        | ok cs' =>
          cases hg : s.gap with
          | true => exact .inl rfl
          | false =>
            refine .inr fun y hy => ?_
            rcases List.mem_cons.1 hy with rfl | hy
            · exact fun hc => hx ⟨hc, hg⟩
            · have := ih hr
              simp only [hg, Bool.false_eq_true, false_or] at this
              exact this y hy
  refine ⟨?_, hn⟩
  rw [codesFrom_ok xs i hn] at h
  exact (Except.ok.inj h).symm

@[simp] theorem packedLine_length (codes : List Code) (m : Nat) : (packedLine codes m).length = m := by
  simp [packedLine]

theorem packedLine_getElem? (codes : List Code) {m k : Nat} (h : k < m) :
    (packedLine codes m)[k]? = some (packedByte codes k) := by
  simp [packedLine, h]

/-- The code at a position of a line, through the class of its sample. -/
theorem codeAt_map (s : State) (xs : List Byte) (i : Nat) :
    codeAt (xs.map (fun x => (classify x s.t1 s.t2 s.t3).codeOrZero)) i = lineCode s xs i := by
  unfold codeAt lineCode
  rw [List.getElem?_map]
  cases xs[i]? <;> rfl

/-- What SETT does. -/
theorem execSett_cases {t1 t2 t3 : Byte} {s t : State} (h : execSett t1 t2 t3 s = .next t) :
    (s.ordchk = true ∧ ¬ Ordered t1 t2 t3 ∧ t = s.raiseError .orderError) ∨
      ((s.ordchk = false ∨ Ordered t1 t2 t3) ∧ t = (s.loadThresholds t1 t2 t3).finish) := by
  unfold execSett at h
  split at h
  · rename_i hc
    exact .inl ⟨hc.1, hc.2, (Host.Outcome.next.inj h).symm⟩
  · rename_i hc
    refine .inr ⟨?_, (Host.Outcome.next.inj h).symm⟩
    cases ho : s.ordchk with
    | false => exact .inl rfl
    | true => exact .inr (Decidable.byContradiction fun hn => hc ⟨ho, hn⟩)

/-- What QUANT does. -/
theorem execQuant_cases {x : Byte} {s t : State} (h : execQuant x s = .next t) :
    (s.tvalid = false ∧ t = s.raiseError .noThresholds) ∨
      (s.tvalid = true ∧ classify x s.t1 s.t2 s.t3 = .gap ∧ s.gap = false ∧ t = s.raiseError (.invalidSample 0)) ∨
      (s.tvalid = true ∧ (classify x s.t1 s.t2 s.t3 ≠ .gap ∨ s.gap = true) ∧
        t = (s.setQcode (classify x s.t1 s.t2 s.t3).codeOrZero).finish) := by
  rw [execQuant, codeOf_eq] at h
  by_cases hv : s.tvalid = false
  · rw [if_pos hv] at h
    exact .inl ⟨hv, (Host.Outcome.next.inj h).symm⟩
  · rw [if_neg hv] at h
    simp only [Bool.not_eq_false] at hv
    by_cases hc : classify x s.t1 s.t2 s.t3 = .gap ∧ s.gap = false
    · simp only [if_pos hc] at h
      exact .inr (.inl ⟨hv, hc.1, hc.2, (Host.Outcome.next.inj h).symm⟩)
    · simp only [if_neg hc] at h
      refine .inr (.inr ⟨hv, ?_, (Host.Outcome.next.inj h).symm⟩)
      cases hg : s.gap with
      | true => exact .inr rfl
      | false => exact .inl fun hn => hc ⟨hn, hg⟩

/-- The state a PACK that succeeds leaves. -/
def packDone (s : State) (n : Len) : State :=
  ((s.storeLine
      (packedLine ((packSamples s n.toNat).map (fun x => (classify x s.t1 s.t2 s.t3).codeOrZero)) (outLen n.toNat))
      (packDraws s n.toNat)).setOlen (BitVec.ofNat 16 (outLen n.toNat))).finish

/-- The state a PACK that raises InvalidSample leaves. -/
def packFailed (s : State) (n : Len) (e : Condition) : State :=
  (s.storeLine (freeRun (packDraws s n.toNat) (outLen n.toNat)) (packDraws s n.toNat + outLen n.toNat)).raiseError e

/-- What PACK does, in one equation. -/
theorem execPack_eq (n : Len) (s : State) :
    execPack n s =
      if s.tvalid = false then .next (s.raiseError .noThresholds)
      else if s.wMax < n then .next (s.raiseError .lengthError)
      else match codesFrom s 0 (packSamples s n.toNat) with
        | .error e => .next (packFailed s n e)
        | .ok _ => .next (packDone s n) := by
  unfold execPack packSamples
  split
  · rfl
  · split
    · rfl
    · cases h : codesFrom s 0 (readRun s.ibuf 0 n.toNat s.draws).1 with
      | error e => simp [packFailed, packDraws, h]
      | ok cs =>
        obtain ⟨rfl, -⟩ := codesFrom_ok_inv h
        simp [packDone, packSamples, packDraws, h]

/-- A PACK whose line has no gap, or under policy (b). -/
theorem execPack_done {n : Len} {s : State} (hv : s.tvalid = true) (hn : n.toNat ≤ s.wMax.toNat)
    (h : s.gap = true ∨ ∀ x ∈ packSamples s n.toNat, classify x s.t1 s.t2 s.t3 ≠ .gap) :
    execPack n s = .next (packDone s n) := by
  rw [execPack_eq, if_neg (by simp [hv]), if_neg (by rw [BitVec.lt_def]; omega), codesFrom_ok _ _ h]

/-- What PACK can do. -/
theorem execPack_cases {n : Len} {s t : State} (h : execPack n s = .next t) :
    (s.tvalid = false ∧ t = s.raiseError .noThresholds) ∨
      (s.tvalid = true ∧ s.wMax.toNat < n.toNat ∧ t = s.raiseError .lengthError) ∨
      (s.tvalid = true ∧ n.toNat ≤ s.wMax.toNat ∧ s.gap = false ∧
        ∃ j, j < n.toNat ∧ t = packFailed s n (.invalidSample (BitVec.ofNat 16 j)) ∧
          (∃ x, (packSamples s n.toNat)[j]? = some x ∧ classify x s.t1 s.t2 s.t3 = .gap) ∧
          ∀ k y, k < j → (packSamples s n.toNat)[k]? = some y → classify y s.t1 s.t2 s.t3 ≠ .gap) ∨
      (s.tvalid = true ∧ n.toNat ≤ s.wMax.toNat ∧
        (s.gap = true ∨ ∀ x ∈ packSamples s n.toNat, classify x s.t1 s.t2 s.t3 ≠ .gap) ∧ t = packDone s n) := by
  rw [execPack_eq] at h
  by_cases hv : s.tvalid = false
  · rw [if_pos hv] at h
    exact .inl ⟨hv, (Host.Outcome.next.inj h).symm⟩
  rw [if_neg hv] at h
  simp only [Bool.not_eq_false] at hv
  by_cases hn : s.wMax < n
  · rw [if_pos hn] at h
    exact .inr (.inl ⟨hv, hn, (Host.Outcome.next.inj h).symm⟩)
  rw [if_neg hn] at h
  have hn' : n.toNat ≤ s.wMax.toNat := by rw [BitVec.lt_def] at hn; omega
  cases hc : codesFrom s 0 (packSamples s n.toNat) with
  | error e =>
    simp only [hc] at h
    obtain ⟨j, hj, he, hg, hx, hlow⟩ := codesFrom_error_inv hc
    rw [Nat.zero_add] at he
    refine .inr (.inr (.inl ⟨hv, hn', hg, j, ?_, by rw [← he]; exact (Host.Outcome.next.inj h).symm, hx, hlow⟩))
    simpa [packSamples] using hj
  | ok cs =>
    simp only [hc] at h
    exact .inr (.inr (.inr ⟨hv, hn', (codesFrom_ok_inv hc).2, (Host.Outcome.next.inj h).symm⟩))

/-- OBUF after a PACK that succeeds. -/
theorem packDone_obuf (s : State) (n : Len) (k : Nat) :
    Memory.get (packDone s n).obuf k =
      if k < outLen n.toNat then
        some (pack4 (lineCode s (packSamples s n.toNat) (4 * k)) (lineCode s (packSamples s n.toNat) (4 * k + 1))
          (lineCode s (packSamples s n.toNat) (4 * k + 2)) (lineCode s (packSamples s n.toNat) (4 * k + 3)))
      else Memory.get s.obuf k := by
  simp only [packDone, State.finish_obuf, State.setOlen_obuf, State.storeLine_obuf, Memory.get_setRun_zero, packedLine_length]
  split
  · rename_i hk
    rw [packedLine_getElem? _ hk, packedByte]
    simp only [codeAt_map]
  · rfl

/-- OBUF after a PACK that raises InvalidSample. -/
theorem packFailed_obuf (s : State) (n : Len) (e : Condition) (k : Nat) :
    Memory.get (packFailed s n e).obuf k =
      if k < outLen n.toNat then some (Config.freeByte (packDraws s n.toNat + k)) else Memory.get s.obuf k := by
  simp only [packFailed, State.raiseError_obuf, State.storeLine_obuf, Memory.get_setRun_zero, freeRun_length]
  split
  · rename_i hk
    rw [freeRun_getElem? _ _ _ hk]
  · rfl

/-- OB_MAX bounds the output of every PACK that fits (R10, R163). -/
theorem outLen_mono {n w : Nat} (h : n ≤ w) : outLen n ≤ outLen w := by
  simp only [outLen]; omega

/-- Every output length fits OLEN (R34). -/
theorem outLen_toNat (n : Len) : (BitVec.ofNat 16 (outLen n.toNat)).toNat = outLen n.toNat := by
  have := n.isLt
  simp only [outLen, BitVec.toNat_ofNat]
  omega

end Sys2Proof.Machine
end

