-- ==== Sys2Proof/Laws/PerInstr.lean ====
section
/-! SUPPORT. Per-instruction facts about the syntax: every command's word matches its own row of
spec/opcode_table.json (mask and match), whatever its operands. -/

namespace Sys2Proof.Laws.TableRow

/-- The mask of a command's row. -/
def mask : Instr → Word
  | .sett _ _ _ => 0xFF000000#32
  | .setcfg _ _ => 0xFFFFFFFC#32
  | .quant _ => 0xFFFFFF00#32
  | .pack _ => 0xFFFF0000#32

/-- The match of a command's row. -/
def pattern : Instr → Word
  | .sett _ _ _ => 0x01000000#32
  | .setcfg _ _ => 0x02000000#32
  | .quant _ => 0x03000000#32
  | .pack _ => 0x04000000#32

/-- The word of `i` matches the row of `i`. -/
def Statement (i : Instr) : Prop := encode i &&& mask i = pattern i

theorem sett (t1 t2 t3 : Byte) : Statement (.sett t1 t2 t3) := by
  unfold Statement
  apply BitVec.eq_of_getLsbD_eq
  intro k hk
  simp only [encode, mask, pattern, BitVec.getLsbD_and, BitVec.getLsbD_append]
  interval_cases k <;> simp [BitVec.getLsbD, Nat.testBit_eq_decide_div_mod_eq]

theorem setcfg (gap ordchk : Bool) : Statement (.setcfg gap ordchk) := by
  unfold Statement
  cases gap <;> cases ordchk <;> decide

theorem quant (s : Byte) : Statement (.quant s) := by
  unfold Statement
  apply BitVec.eq_of_getLsbD_eq
  intro k hk
  simp only [encode, mask, pattern, BitVec.getLsbD_and, BitVec.getLsbD_append]
  interval_cases k <;> simp [BitVec.getLsbD, Nat.testBit_eq_decide_div_mod_eq]

theorem pack (n : Len) : Statement (.pack n) := by
  unfold Statement
  apply BitVec.eq_of_getLsbD_eq
  intro k hk
  simp only [encode, mask, pattern, BitVec.getLsbD_and, BitVec.getLsbD_append]
  interval_cases k <;> simp [BitVec.getLsbD, Nat.testBit_eq_decide_div_mod_eq]

end Sys2Proof.Laws.TableRow
end

