-- ==== Sys2Proof/Laws/Port.lean ====
section
/-! SUPPORT. What each host transaction can do, said once (20_memory.md R71, R72). -/

namespace Sys2Proof.Machine

theorem Memory.get_writeLane (m : Memory) (size b : Nat) (d : Word) (strb : Strobe) (j x : Nat) :
    Memory.get (writeLane size b d strb j m) x =
      if x = b + j ∧ strb.getLsbD j = true ∧ x < size then some (dataByte d j) else Memory.get m x := by
  unfold writeLane
  by_cases hx : x = b + j
  · subst hx
    by_cases hs : strb.getLsbD j = true ∧ b + j < size
    · rw [if_pos hs, if_pos ⟨rfl, hs⟩, Memory.get_set_self]
    · rw [if_neg hs, if_neg (fun h => hs h.2)]
  · simp only [hx, false_and, if_false]
    split
    · exact Memory.get_set_ne m _ hx
    · rfl

/-- What a host write leaves at every index of IBUF (R68). -/
theorem Memory.get_writeWindow (m : Memory) (size b : Nat) (d : Word) (strb : Strobe) (x : Nat) :
    Memory.get (writeWindow size b d strb m) x =
      if b ≤ x ∧ x < b + 4 ∧ strb.getLsbD (x - b) = true ∧ x < size then some (dataByte d (x - b))
      else Memory.get m x := by
  simp only [writeWindow, Memory.get_writeLane]
  by_cases h : b ≤ x ∧ x < b + 4
  · obtain ⟨j, hj, rfl⟩ : ∃ j, j < 4 ∧ x = b + j := ⟨x - b, by omega, by omega⟩
    have hc : j = 0 ∨ j = 1 ∨ j = 2 ∨ j = 3 := by omega
    rcases hc with rfl | rfl | rfl | rfl <;> simp
  · have outside : ∀ j, j < 4 → x ≠ b + j := fun j hj => by omega
    simp only [outside 0, outside 1, outside 2, outside 3, Nat.reduceLT, false_and, if_false]
    rw [if_neg fun hc => h ⟨hc.1, hc.2.1⟩]

theorem Memory.writeLane_wf {m : Memory} (h : Memory.wf m) (size b : Nat) (d : Word) (strb : Strobe) (j : Nat) :
    Memory.wf (writeLane size b d strb j m) := by
  unfold writeLane
  split
  · exact Memory.set_wf h _ _
  · exact h

/-- A host write keeps the canonical form. -/
theorem Memory.writeWindow_wf {m : Memory} (h : Memory.wf m) (size b : Nat) (d : Word) (strb : Strobe) :
    Memory.wf (writeWindow size b d strb m) := by
  simp only [writeWindow]
  exact writeLane_wf (writeLane_wf (writeLane_wf (writeLane_wf h _ _ _ _ _) _ _ _ _ _) _ _ _ _ _) _ _ _ _ _

theorem Memory.writeLane_below {m : Memory} {size : Nat} (h : Memory.below m size) (b : Nat) (d : Word) (strb : Strobe)
    (j : Nat) : Memory.below (writeLane size b d strb j m) size := by
  unfold writeLane
  split
  · rename_i hs
    exact Memory.set_below h hs.2 _
  · exact h

/-- A host write writes nothing at or beyond the buffer's size (R62). -/
theorem Memory.writeWindow_below {m : Memory} {size : Nat} (h : Memory.below m size) (b : Nat) (d : Word)
    (strb : Strobe) : Memory.below (writeWindow size b d strb m) size := by
  simp only [writeWindow]
  exact writeLane_below (writeLane_below (writeLane_below (writeLane_below h _ _ _ _) _ _ _ _) _ _ _ _) _ _ _ _

/-- The address bits 1:0 are ignored (R63). -/
theorem regionOf_congr {a b : PortAddr} (h : a.toNat / 4 = b.toNat / 4) : regionOf a = regionOf b := by
  unfold regionOf wordOffset
  rw [h]

/-- Which offsets the regions with an effect of their own have (R62). -/
theorem regionOf_cmd {a : PortAddr} (h : regionOf a = .cmd) : wordOffset a = 0x00004 := by
  unfold regionOf at h
  split_ifs at h
  assumption

theorem regionOf_status {a : PortAddr} (h : regionOf a = .status) : wordOffset a = 0x00008 := by
  unfold regionOf at h
  split_ifs at h
  assumption

theorem regionOf_ibuf_window {a : PortAddr} {b : Nat} (h : regionOf a = .ibuf b) :
    InIbufWindow a ∧ wordOffset a = 0x10000 + b := by
  unfold regionOf at h
  split_ifs at h
  rename_i hw
  have := Region.ibuf.inj h
  exact ⟨hw, by omega⟩

theorem regionOf_obuf_window {a : PortAddr} {b : Nat} (h : regionOf a = .obuf b) :
    InObufWindow a ∧ wordOffset a = 0x20000 + b := by
  unfold regionOf at h
  split_ifs at h
  rename_i hw
  have := Region.obuf.inj h
  exact ⟨hw, by omega⟩

/-- From the IBUF window upward no register is left: an offset lies in a window or is reserved (R62). -/
theorem regionOf_of_ge {a : PortAddr} (h : 0x10000 ≤ wordOffset a) :
    regionOf a =
      if wordOffset a ≤ 0x1FFFC then .ibuf (wordOffset a - 0x10000)
      else if InObufWindow a then .obuf (wordOffset a - 0x20000)
      else .reserved := by
  have noRegister : ∀ c, c ≤ 0x0001C → wordOffset a ≠ c := fun c hc => by omega
  simp [regionOf, noRegister, h]

/-- A word of the IBUF window, by the index of its first byte. -/
theorem regionOf_ibuf {a : PortAddr} {b : Nat} (h : wordOffset a = 0x10000 + b) (hb : b ≤ 0xFFFC) :
    regionOf a = .ibuf b := by
  have inside : wordOffset a ≤ 0x1FFFC := by omega
  rw [regionOf_of_ge (by omega), if_pos inside, h, Nat.add_sub_cancel_left]

/-- A word of the OBUF window, by the index of its first byte. -/
theorem regionOf_obuf {a : PortAddr} {b : Nat} (h : wordOffset a = 0x20000 + b) (hb : b ≤ 0xFFFC) :
    regionOf a = .obuf b := by
  have above : ¬ wordOffset a ≤ 0x1FFFC := by omega
  have inside : InObufWindow a := ⟨by omega, by omega⟩
  rw [regionOf_of_ge (by omega), if_neg above, if_pos inside, h, Nat.add_sub_cancel_left]

theorem unwrittenLanes_zero (m : Memory) (size b : Nat) : unwrittenLanes m size b 0 = 0 := rfl

theorem unwrittenLanes_succ (m : Memory) (size b n : Nat) :
    unwrittenLanes m size b (n + 1) =
      unwrittenLanes m size b n + (if b + n < size ∧ Memory.get m (b + n) = none then 1 else 0) := by
  simp [unwrittenLanes, List.range_succ, List.countP_append, List.countP_cons]

/-- A lane is a draw exactly when it lies inside the buffer and has not been written. -/
theorem lane_draws (m : Memory) (size x draws : Nat) :
    (lane m size x draws).2 = draws + (if x < size ∧ Memory.get m x = none then 1 else 0) := by
  unfold lane
  by_cases hx : x < size <;> cases h : Memory.get m x <;> simp [hx, readByte, h]

theorem lane_unwritten {m : Memory} {size x draws : Nat} (hx : x < size) (h : Memory.get m x = none) :
    (lane m size x draws).1 = Config.freeByte draws := by
  simp [lane, hx, readByte_unwritten h]

/-- The bytes of a word made of four, lane by lane (R64). -/
theorem lane_of_word (b0 b1 b2 b3 : Byte) :
    (b3 ++ b2 ++ b1 ++ b0 : Word).extractLsb' 0 8 = b0 ∧ (b3 ++ b2 ++ b1 ++ b0 : Word).extractLsb' 8 8 = b1 ∧
      (b3 ++ b2 ++ b1 ++ b0 : Word).extractLsb' 16 8 = b2 ∧ (b3 ++ b2 ++ b1 ++ b0 : Word).extractLsb' 24 8 = b3 := by
  refine ⟨?_, ?_, ?_, ?_⟩ <;>
    (apply BitVec.eq_of_getLsbD_eq
     intro i hi
     simp only [BitVec.getLsbD_extractLsb', BitVec.getLsbD_append]
     interval_cases i <;> simp)

/-- A read of a word draws as many bytes as it has lanes inside the buffer that nobody has written. -/
theorem windowWord_draws (m : Memory) (size b draws : Nat) :
    (windowWord m size b draws).2 = draws + unwrittenLanes m size b 4 := by
  simp only [windowWord, lane_draws, unwrittenLanes_succ, unwrittenLanes_zero, Nat.zero_add, Nat.add_zero,
    Nat.add_assoc]

/-- Lane j of a word read from a window is the byte b + j, read after the draws of the lanes below it (R71). -/
theorem windowWord_lane (m : Memory) (size b draws : Nat) {j : Nat} (hj : j < 4) :
    (windowWord m size b draws).1.extractLsb' (8 * j) 8 =
      (lane m size (b + j) (draws + unwrittenLanes m size b j)).1 := by
  obtain rfl | rfl | rfl | rfl : j = 0 ∨ j = 1 ∨ j = 2 ∨ j = 3 := by omega
  all_goals simp only [windowWord, lane_draws, unwrittenLanes_succ, unwrittenLanes_zero, Nat.zero_add, Nat.add_zero,
    Nat.add_assoc]
  · exact (lane_of_word _ _ _ _).1
  · exact (lane_of_word _ _ _ _).2.1
  · exact (lane_of_word _ _ _ _).2.2.1
  · exact (lane_of_word _ _ _ _).2.2.2

/-- A drawn lane is counted among the lanes below every later one. -/
theorem unwrittenLanes_lt {m : Memory} {size b j n : Nat} (hj : j < n) (hs : b + j < size)
    (h : Memory.get m (b + j) = none) : unwrittenLanes m size b j < unwrittenLanes m size b n := by
  induction n with
  | zero => omega
  | succ n ih =>
    rw [unwrittenLanes_succ]
    rcases Nat.lt_succ_iff_lt_or_eq.1 hj with hj | rfl
    · exact Nat.lt_add_right _ (ih hj)
    · rw [if_pos ⟨hs, h⟩]; omega

/-- What a read of a window can do to the state (R68, R69). -/
theorem readWindow_cases (m : Memory) (size b : Nat) (s : State) :
    (s.busy = true ∧ readWindow m size b s = (0, s.setHaz)) ∨
      (s.busy = false ∧ readWindow m size b s =
        ((windowWord m size b s.draws).1, s.setDraws (windowWord m size b s.draws).2)) := by
  cases h : s.busy <;> simp [readWindow, h]

/-- What HostRead can do to the state (R71, R73). -/
theorem hostRead_cases (a : PortAddr) (s : State) :
    (hostRead a s).2 = s ∨ (s.busy = true ∧ (hostRead a s).2 = s.setHaz) ∨
      (s.busy = false ∧ ∃ d, (hostRead a s).2 = s.setDraws d) := by
  unfold hostRead
  cases regionOf a with
  | ibuf b =>
    rcases readWindow_cases s.ibuf s.wMax.toNat b s with ⟨hb, h⟩ | ⟨hb, h⟩
    · exact .inr (.inl ⟨hb, by simp only [h]⟩)
    · exact .inr (.inr ⟨hb, _, congrArg Prod.snd h⟩)
  | obuf b =>
    rcases readWindow_cases s.obuf s.obMax b s with ⟨hb, h⟩ | ⟨hb, h⟩
    · exact .inr (.inl ⟨hb, by simp only [h]⟩)
    · exact .inr (.inr ⟨hb, _, congrArg Prod.snd h⟩)
  | _ => exact .inl rfl

/-- What HostWrite can do to the state (R72). -/
theorem hostWrite_cases (a : PortAddr) (d : Word) (strb : Strobe) (s : State) :
    hostWrite a d strb s = s ∨ (s.busy = true ∧ hostWrite a d strb s = s.setHaz) ∨
      (s.busy = false ∧ regionOf a = .cmd ∧ strb = 0b1111#4 ∧ hostWrite a d strb s = s.acceptCommand d) ∨
      (regionOf a = .status ∧ strb = 0b1111#4 ∧
        hostWrite a d strb s = s.clearSticky (d.getLsbD 8) (d.getLsbD 9)) ∨
      (s.busy = false ∧ ∃ b, regionOf a = .ibuf b ∧
        hostWrite a d strb s = s.setIbuf (writeWindow s.wMax.toNat b d strb s.ibuf)) := by
  unfold hostWrite
  split
  · exact .inl rfl
  · cases hr : regionOf a with
    | cmd =>
      simp only [writeCmd]
      cases hb : s.busy with
      | true => exact .inr (.inl ⟨rfl, by simp⟩)
      | false =>
        by_cases hs : strb = 0b1111#4
        · exact .inr (.inr (.inl ⟨rfl, by simp, hs, by simp [hs]⟩))
        · exact .inl (by simp [hs])
    | status =>
      simp only [writeStatus]
      by_cases hs : strb = 0b1111#4
      · exact .inr (.inr (.inr (.inl ⟨by simp, hs, by simp [hs]⟩)))
      · exact .inl (by simp [hs])
    | ibuf b =>
      simp only [writeIbuf]
      cases hb : s.busy with
      | true => exact .inr (.inl ⟨rfl, by simp⟩)
      | false => exact .inr (.inr (.inr (.inr ⟨rfl, b, rfl, by simp⟩)))
    | obuf b =>
      simp only [writeObuf]
      cases hb : s.busy with
      | true => exact .inr (.inl ⟨rfl, by simp⟩)
      | false => exact .inl (by simp)
    | _ => exact .inl rfl

/-- HostRead of STATUS has no side effect (R73). -/
@[simp] theorem hostRead_status (s : State) : hostRead statusAddr s = (s.statusWord, s) := rfl

/-- Bit 0 of STATUS is BUSY (R25). -/
theorem State.statusWord_busy (s : State) : s.statusWord.getLsbD 0 = s.busy := by
  unfold State.statusWord
  rw [BitVec.getLsbD_setWidth, BitVec.getLsbD_append]
  cases s.busy <;> rfl

/-- One pass of WAIT: the loop goes on exactly while BUSY (30_encoding.md R101). -/
theorem waitPoll_eq (s : State) :
    waitPoll s = if s.busy then (s.logRead statusAddr s.statusWord).setHostOps (.wait :: s.hostOps)
      else s.logRead statusAddr s.statusWord := by
  simp only [waitPoll, hostReadLogged, hostRead_status, State.statusWord_busy]
  rfl

/-- While BUSY, no host transaction but a reset does more than set HAZ, clear AERR or HAZ, and keep the host's own
record: the lockout of R70. -/
theorem runHostOp_busy {op : HostOp} {s : State} (hb : s.busy = true) (ho : op ≠ .reset) :
    ∃ aerr haz hostOps reads,
      runHostOp op s = { s with aerr := aerr, haz := haz, hostOps := hostOps, reads := reads } := by
  cases op with
  | reset => exact absurd rfl ho
  | wait =>
    refine ⟨s.aerr, s.haz, .wait :: s.hostOps, (statusAddr, s.statusWord) :: s.reads, ?_⟩
    rw [runHostOp, waitPoll_eq, if_pos hb]
    rfl
  | read a =>
    simp only [runHostOp, hostReadLogged]
    rcases hostRead_cases a s with h | ⟨-, h⟩ | ⟨hn, -⟩
    · rw [h]; exact ⟨s.aerr, s.haz, s.hostOps, (a, (hostRead a s).1) :: s.reads, rfl⟩
    · rw [h]; exact ⟨s.aerr, true, s.hostOps, (a, (hostRead a s).1) :: s.reads, rfl⟩
    · rw [hb] at hn; cases hn
  | write a d strb =>
    simp only [runHostOp]
    rcases hostWrite_cases a d strb s with h | ⟨-, h⟩ | ⟨hn, -⟩ | ⟨-, -, h⟩ | ⟨hn, -⟩
    · rw [h]; exact ⟨s.aerr, s.haz, s.hostOps, s.reads, rfl⟩
    · rw [h]; exact ⟨s.aerr, true, s.hostOps, s.reads, rfl⟩
    · rw [hb] at hn; cases hn
    · rw [h]; exact ⟨_, _, s.hostOps, s.reads, rfl⟩
    · rw [hb] at hn; cases hn

end Sys2Proof.Machine
end

