-- ==== Sys2Proof/Laws/Step.lean ====
section
/-! SUPPORT. What one step can do (70_reset_and_hazards.md R239, R240), for every invariant to be derived from. -/

namespace Sys2Proof.Machine

/-- Each command's execution ends in a next state (R240: "every path ends in finish or raise"). -/
theorem exec_next (i : Instr) (s : State) : ∃ t, exec i s = .next t := by
  cases i with
  | sett a b c =>
    simp only [exec, execSett]
    split <;> exact ⟨_, rfl⟩
  | setcfg g o => exact ⟨_, rfl⟩
  | quant x =>
    simp only [exec, execQuant]
    split
    · exact ⟨_, rfl⟩
    · split <;> exact ⟨_, rfl⟩
  | pack n =>
    simp only [exec, execPack_eq]
    split
    · exact ⟨_, rfl⟩
    · split
      · exact ⟨_, rfl⟩
      · split <;> exact ⟨_, rfl⟩

/-- What the host may change while a command is BUSY, and the model's own record of the host, neither steer nor are
steered by its execution (R29, R70): they come out as they went in, AERR aside, which an error sets. -/
theorem exec_host_fields (i : Instr) (s u : State) (a hz : Bool) (ops : List HostOp) (tr : List Agent)
    (rd : List (PortAddr × Word)) (h : exec i s = .next u) :
    ∃ a', exec i { s with aerr := a, haz := hz, hostOps := ops, turns := tr, reads := rd } =
        .next { u with aerr := a', haz := hz, hostOps := ops, turns := tr, reads := rd } ∧
      (a = s.aerr → a' = u.aerr) := by
  cases i with
  | sett x y z =>
    simp only [exec, execSett] at h ⊢
    split at h
    · cases h; rw [if_pos ‹_›]; exact ⟨true, rfl, fun _ => rfl⟩
    · cases h; rw [if_neg ‹_›]; exact ⟨a, rfl, fun h => h⟩
  | setcfg g o => cases h; exact ⟨a, rfl, fun h => h⟩
  | quant x =>
    have e : codeOf { s with aerr := a, haz := hz, hostOps := ops, turns := tr, reads := rd } x 0 = codeOf s x 0 :=
      rfl
    simp only [exec, execQuant, e] at h ⊢
    split at h
    · cases h; rw [if_pos ‹_›]; exact ⟨true, rfl, fun _ => rfl⟩
    · rw [if_neg ‹_›]
      cases hc : codeOf s x 0 with
      | ok c => simp only [hc] at h ⊢; cases h; exact ⟨a, rfl, fun h => h⟩
      | error c => simp only [hc] at h ⊢; cases h; exact ⟨true, rfl, fun _ => rfl⟩
  | pack n =>
    have e : ∀ xs k, codesFrom { s with aerr := a, haz := hz, hostOps := ops, turns := tr, reads := rd } k xs =
        codesFrom s k xs := by
      intro xs
      induction xs with
      | nil => intro k; rfl
      | cons x xs ih =>
        intro k
        have e : codeOf { s with aerr := a, haz := hz, hostOps := ops, turns := tr, reads := rd } x k = codeOf s x k :=
          rfl
        simp only [codesFrom, e, ih]
    simp only [exec, execPack, e] at h ⊢
    split at h
    · cases h; rw [if_pos ‹_›]; exact ⟨true, rfl, fun _ => rfl⟩
    · rw [if_neg ‹_›]
      split at h
      · cases h; rw [if_pos ‹_›]; exact ⟨true, rfl, fun _ => rfl⟩
      · rw [if_neg ‹_›]
        cases hc : codesFrom s 0 (readRun s.ibuf 0 n.toNat s.draws).1 with
        | ok c => simp only [hc] at h ⊢; cases h; exact ⟨a, rfl, fun h => h⟩
        | error c => simp only [hc] at h ⊢; cases h; exact ⟨true, rfl, fun _ => rfl⟩

/-- The engine step ends in a next state with BUSY = 0 (R202, R240). -/
theorem engineStep_next (s : State) : ∃ t, engineStep s = .next t ∧ t.busy = false := by
  unfold engineStep
  cases decode s.pend with
  | error e => exact ⟨_, rfl, rfl⟩
  | ok i =>
    obtain ⟨t, ht⟩ := exec_next i s
    refine ⟨t, ht, ?_⟩
    cases i with
    | sett a b c => rcases execSett_cases ht with ⟨-, -, rfl⟩ | ⟨-, rfl⟩ <;> rfl
    | setcfg g o => cases ht; rfl
    | quant x => rcases execQuant_cases ht with ⟨-, rfl⟩ | ⟨-, -, -, rfl⟩ | ⟨-, -, rfl⟩ <;> rfl
    | pack n =>
      rcases execPack_cases ht with ⟨-, rfl⟩ | ⟨-, -, rfl⟩ | ⟨-, -, -, -, -, rfl, -⟩ | ⟨-, -, -, rfl⟩ <;> rfl

/-- A run of k + 1 steps is one step and a run of k. -/
theorem run_succ {s t : State} (k : Nat) (h : step s = .next t) :
    Host.Core.run Sys2Proof.core (k + 1) s = Host.Core.run Sys2Proof.core k t := by
  have e : Sys2Proof.core.step s = .next t := h
  simp only [Host.Core.run, e]

/-- When the engine moves there is a command, and when the host moves it has a transaction. -/
theorem mover_engine {s : State} (h : mover s = some .engine) : s.busy = true := by
  unfold mover at h
  split at h <;> simp_all

theorem mover_host {s : State} (h : mover s = some .host) : ∃ op rest, s.hostOps = op :: rest := by
  unfold mover at h
  split at h <;> simp_all

theorem mover_none {s : State} (h : mover s = none) : s.busy = false ∧ s.hostOps = [] := by
  unfold mover at h
  split at h <;> simp_all

/-- One step: nothing to do, a host operation, a command executed, or an ILLEGAL word. -/
theorem step_cases {s t : State} (h : step s = .next t) :
    (mover s = none ∧ t = s.endTurn) ∨
      (∃ op rest, HostIssues s op ∧ s.hostOps = op :: rest ∧ t = runHostOp op (s.endTurn.setHostOps rest)) ∨
      (∃ i, EngineExecutes s i ∧ exec i s.endTurn = .next t) ∨
      (∃ e, mover s = some .engine ∧ decode s.pend = .error e ∧ t = s.endTurn.raiseError .illegalCommand) := by
  unfold step runTurn at h
  cases hm : mover s with
  | none =>
    simp only [hm] at h
    exact .inl ⟨rfl, (Host.Outcome.next.inj h).symm⟩
  | some a =>
    cases a with
    | host =>
      simp only [hm] at h
      obtain ⟨op, rest, ho⟩ := mover_host hm
      refine .inr (.inl ⟨op, rest, ⟨hm, by simp [ho]⟩, ho, ?_⟩)
      rw [← Host.Outcome.next.inj h]
      simp [hostTurn, ho]
    | engine =>
      simp only [hm, engineStep, State.endTurn_pend] at h
      cases hd : decode s.pend with
      | ok i =>
        simp only [hd] at h
        exact .inr (.inr (.inl ⟨i, ⟨hm, hd⟩, h⟩))
      | error e =>
        simp only [hd] at h
        exact .inr (.inr (.inr ⟨e, rfl, rfl, (Host.Outcome.next.inj h).symm⟩))

end Sys2Proof.Machine
end

