-- ==== Sys2Proof/Machine/AssemblerText.lean ====
section
/-! DEFINITION. The written form of commands and host transactions (30_encoding.md R99 to R101; numbers as in
00_scope.md R14): one line of text, as characters, to the host operations it stands for. A line that has not the form
of a rule, or an operand that does not fit its field, is refused (log 15). -/

namespace Sys2Proof.Machine

/-- The value of a digit in a base. -/
def digitOf (base : Nat) (c : Char) : Option Nat :=
  let n := c.toNat
  let v :=
    if 48 ≤ n ∧ n ≤ 57 then n - 48
    else if 65 ≤ n ∧ n ≤ 70 then n - 55
    else if 97 ≤ n ∧ n ≤ 102 then n - 87
    else base
  if v < base then some v else none

/-- The digits after the first; underscores carry no meaning (R14). -/
def moreDigits (base acc : Nat) : List Char → Option Nat
  | [] => some acc
  | c :: cs =>
    if c = '_' then moreDigits base acc cs
    else (digitOf base c).bind (fun v => moreDigits base (acc * base + v) cs)

/-- One digit or more. -/
def numeral (base : Nat) : List Char → Option Nat
  | [] => none
  | c :: cs => (digitOf base c).bind (fun v => moreDigits base v cs)

/-- A number: `0x` hexadecimal, `0b` binary, else decimal (R14, R99). -/
def numberOf : List Char → Option Nat
  | '0' :: 'x' :: cs => numeral 16 cs
  | '0' :: 'b' :: cs => numeral 2 cs
  | cs => numeral 10 cs

/-- The text without spaces at its ends. -/
def trimSpaces (cs : List Char) : List Char :=
  ((cs.dropWhile (· == ' ')).reverse.dropWhile (· == ' ')).reverse

/-- The pieces of the text between commas. -/
def splitCommas : List Char → List (List Char)
  | [] => [[]]
  | c :: cs =>
    if c = ',' then [] :: splitCommas cs
    else
      match splitCommas cs with
      | [] => [[c]]
      | w :: ws => (c :: w) :: ws

/-- Every number of a list of texts, or none if one of them is no number. -/
def numbersOf : List (List Char) → Option (List Nat)
  | [] => some []
  | w :: ws => (numberOf (trimSpaces w)).bind (fun n => (numbersOf ws).map (fun ns => n :: ns))

/-- The operands of a line, separated by commas. -/
def operandsOf (cs : List Char) : Option (List Nat) :=
  if trimSpaces cs = [] then some [] else numbersOf (splitCommas cs)

/-- The first word of a line and what follows it. -/
def firstWord (cs : List Char) : List Char × List Char :=
  let t := trimSpaces cs
  (t.takeWhile (· != ' '), trimSpaces (t.dropWhile (· != ' ')))

/-- A command with its operands (R99). -/
def commandOf (mnemonic : List Char) (ns : List Nat) : Option AsmCommand :=
  match mnemonic, ns with
  | ['S', 'E', 'T', 'T'], [t1, t2, t3] => some (.sett t1 t2 t3)
  | ['S', 'E', 'T', 'C', 'F', 'G'], [gap, ordchk] => some (.setcfg gap ordchk)
  | ['Q', 'U', 'A', 'N', 'T'], [s] => some (.quant s)
  | ['P', 'A', 'C', 'K'], [n] => some (.pack n)
  | ['.', 'w', 'o', 'r', 'd'], [w] => some (.word w)
  | _, _ => none

/-- A line that is one command (R99). -/
def parseCommand (cs : List Char) : Option AsmCommand :=
  (operandsOf (firstWord cs).2).bind (commandOf (firstWord cs).1)

/-- `CMD <mnemonic …>` (R100). -/
def parseCmd (cs : List Char) : Option HostOp := ((parseCommand cs).bind assemble).map (wr cmdAddr)

/-- A host write whose operands fit the port (R61, R100). -/
def writeOf (off d strb : Nat) : Option HostOp :=
  if off < 2 ^ 18 ∧ d < 2 ^ 32 ∧ strb < 2 ^ 4 then
    some (.write (BitVec.ofNat 18 off) (BitVec.ofNat 32 d) (BitVec.ofNat 4 strb))
  else none

/-- `WR`, `WRB`, `RD`, `WAIT` and `CONVERT` with their operands (R100, R101). -/
def transactionOf (form : List Char) (ns : List Nat) : Option (List HostOp) :=
  match form, ns with
  | ['W', 'R'], [off, d] => (writeOf off d 0b1111).map (fun op => [op])
  | ['W', 'R', 'B'], [off, d, strb] => (writeOf off d strb).map (fun op => [op])
  | ['R', 'D'], [off] => if off < 2 ^ 18 then some [.read (BitVec.ofNat 18 off)] else none
  | ['W', 'A', 'I', 'T'], [] => some [.wait]
  | ['C', 'O', 'N', 'V', 'E', 'R', 'T'], [n] => if n ≤ 65535 then some (convert (BitVec.ofNat 16 n)) else none
  | _, _ => none

/-- The samples of `LOADLINE [s0, …, s(n-1)]` (R101), each in 0..255. A line with more words than the port has offsets
for is refused (R61; log 16). -/
def parseSamples (cs : List Char) : Option (List HostOp) :=
  match cs, cs.getLast? with
  | '[' :: rest, some ']' =>
    (operandsOf rest.dropLast).bind (fun ns =>
      if ns.all (fun n => decide (n ≤ 255)) && decide (ns.length ≤ longestLine) then
        some (loadLine (ns.map (fun n => BitVec.ofNat 8 n)))
      else none)
  | _, _ => none

/-- The text before a comment (`# …`) or the record of a read value (`-> v`, R100). -/
def codePart : List Char → List Char
  | [] => []
  | '#' :: _ => []
  | '-' :: '>' :: _ => []
  | c :: cs => c :: codePart cs

/-- One line of a host program (R100, R101). -/
def parseLine (cs : List Char) : Option (List HostOp) :=
  let w := firstWord (codePart cs)
  match w.1 with
  | ['C', 'M', 'D'] => (parseCmd w.2).map (fun op => [op])
  | ['R', 'U', 'N'] => (parseCmd w.2).map (fun op => [op, .wait])
  | ['L', 'O', 'A', 'D', 'L', 'I', 'N', 'E'] => parseSamples w.2
  | form => (operandsOf w.2).bind (transactionOf form)

end Sys2Proof.Machine
end

