-- ==== Sys2Proof/Tests/Slice0.lean ====
section
/-! SUPPORT. Small tests, their expected values from spec/ (30_encoding.md, 95_test_vectors.md), and one witness for the
hypotheses of each statement that has some. -/

namespace Sys2Proof.Tests

open Sys2Proof.Machine

/-- The field `f` of the next state, if there is one. -/
def fieldAfter {α : Type} (o : Host.Outcome State Fault Refusal) (f : State → α) : Option α :=
  match o with
  | .next t => some (f t)
  | .fault _ => none
  | .refused _ => none

/-- Thresholds 50, 100, 150 loaded, W_MAX = 8. -/
def ready : State := { State.resetFor 8 with t1 := 50, t2 := 100, t3 := 150, tvalid := true }

/-- The scanline [0, 60, 120, 200] in IBUF. -/
def loaded : State := { ready with ibuf := [(0, 0), (1, 60), (2, 120), (3, 200)] }

/-- The scanline [60, 10, 60, 60, 5, 60] of P-12 in IBUF: gaps at 1 and 4. -/
def gapped : State := { ready with ibuf := [(0, 60), (1, 10), (2, 60), (3, 60), (4, 5), (5, 60)] }

/-- The scanline [255, 255, 255, 255, 101] of P-6 in IBUF. -/
def fiveSamples : State := { ready with ibuf := [(0, 255), (1, 255), (2, 255), (3, 255), (4, 101)] }

/-- `SETT 50, 100, 150` accepted and not yet executed. -/
def busySett : State := { State.resetFor 8 with pend := 0x01326496, busy := true }

/-! ### Decoding: words written out from 30_encoding.md R90 -/

theorem test_decode_sett : (decode 0b00000001_00110010_01100100_10010110#32).toOption = some (.sett 50 100 150) := by
  decide

theorem test_decode_setcfg_gap : (decode 0b00000010_00000000_00000000_00000001#32).toOption = some (.setcfg true false) := by
  decide

theorem test_decode_setcfg_ordchk :
    (decode 0b00000010_00000000_00000000_00000010#32).toOption = some (.setcfg false true) := by decide

theorem test_decode_quant : (decode 0b00000011_00000000_00000000_01111000#32).toOption = some (.quant 120) := by decide

theorem test_decode_pack : (decode 0b00000100_00000000_00000001_00000100#32).toOption = some (.pack 260) := by decide

theorem test_decode_reserved_bits : (decode 0x02000004#32).toOption = none ∧ (decode 0x03000100#32).toOption = none ∧
    (decode 0x04010000#32).toOption = none := by decide

theorem test_decode_reserved_names : illegalReason 0x05000000#32 = .reservedOpcode ∧
    illegalReason 0x00000000#32 = .reservedOpcode ∧ illegalReason 0x04010000#32 = .reservedOperandBit := by decide

theorem test_table_words : decodeTableWord 32 0x01000000 = some (.sett 0 0 0) ∧
    decodeTableWord 32 0x02000000 = some (.setcfg false false) ∧ decodeTableWord 32 0x03000000 = some (.quant 0) ∧
    decodeTableWord 32 0x04000000 = some (.pack 0) := by decide

/-! ### The assembler's checks (R99): each ill-formed term is refused -/

theorem test_illformed_sett : (AsmCommand.sett 256 0 0).wellFormed = false ∧
    (AsmCommand.sett 0 256 0).wellFormed = false ∧ (AsmCommand.sett 0 0 256).wellFormed = false := by decide

theorem test_illformed_setcfg : (AsmCommand.setcfg 2 0).wellFormed = false ∧
    (AsmCommand.setcfg 0 2).wellFormed = false := by decide

theorem test_illformed_quant : (AsmCommand.quant 256).wellFormed = false := by decide

theorem test_illformed_pack : (AsmCommand.pack 65536).wellFormed = false := by decide

theorem test_illformed_word : (AsmCommand.word 4294967296).wellFormed = false := by decide

theorem test_wellformed : (AsmCommand.sett 255 255 255).wellFormed = true ∧ (AsmCommand.setcfg 1 1).wellFormed = true ∧
    (AsmCommand.quant 255).wellFormed = true ∧ (AsmCommand.pack 65535).wellFormed = true := by decide

/-- `SETT 50, 100, 150` is 0x01326496 (R124). -/
theorem test_assemble_sett : assemble (.sett 50 100 150) = some 0x01326496#32 := by decide

/-- `WR 0x04, 0b11  # c` as text (R99, R100). -/
theorem test_parse_wr : parseLine ['W', 'R', ' ', '0', 'x', '0', '4', ',', ' ', '0', 'b', '1', '1', ' ', '#', 'c'] =
    some [.write 0x00004 3 0b1111#4] := by decide

/-- `RUN QUANT 0x1E` as text (R101, R147). -/
theorem test_parse_run : parseLine ['R', 'U', 'N', ' ', 'Q', 'U', 'A', 'N', 'T', ' ', '0', 'x', '1', 'E'] =
    some [.write 0x00004 0x0300001E 0b1111#4, .wait] := by decide

/-- `LOADLINE [1, 2]` as text, and an operand that does not fit (R99, R101). -/
theorem test_parse_loadline :
    parseLine ['L', 'O', 'A', 'D', 'L', 'I', 'N', 'E', ' ', '[', '1', ',', ' ', '2', ']'] =
      some [.write 0x10000 0x00000201 0b1111#4] ∧
    parseLine ['C', 'M', 'D', ' ', 'Q', 'U', 'A', 'N', 'T', ' ', '2', '5', '6'] = none := by decide

/-! ### The commands (95_test_vectors.md sections 2.2 to 2.6) -/

theorem test_classify_unordered : classify 205 200 210 100 = .code 1 ∧ classify 150 200 210 100 = .code 3 ∧
    classify 100 200 210 100 = .gap ∧ classify 75 100 50 150 = .code 2 := by decide

theorem test_pack4 : pack4 1 2 3 0 = 0x6C ∧ pack4 0 1 2 3 = 0x1B ∧ pack4 2 0 2 3 = 0x8B := by decide

theorem test_sett_order_error : fieldAfter (exec (.sett 50 150 100) { ready with ordchk := true })
    (fun t => (t.errcode, t.aerr, t.t1, t.t2, t.t3)) = some (.orderError, true, 50, 100, 150) := by decide

theorem test_sett_equal_passes : fieldAfter (exec (.sett 100 100 100) { ready with ordchk := true })
    (fun t => (t.errcode, t.thrWord)) = some (.none, 0x00646464) := by decide

theorem test_setcfg_reads : fieldAfter (exec (.setcfg true false) (State.resetFor 4)) (fun t => (t.cfgWord, t.statusWord)) =
    some (1, 0) := by decide

theorem test_quant_boundary : fieldAfter (exec (.quant 51) { ready with qcode := 2 }) (fun t => (t.qcode, t.errcode)) =
    some (1, .none) := by decide

theorem test_quant_gap : fieldAfter (exec (.quant 50) { ready with qcode := 2, erridx := 7 })
    (fun t => (t.qcode, t.erridx, t.statusWord)) = some (2, 0, 0x510) := by decide

/-- P-6: FF 80. -/
theorem test_pack_zero_fill : fieldAfter (exec (.pack 5) fiveSamples) (fun t => (t.olen, t.obuf)) =
    some (2, [(0, 0xFF), (1, 0x80)]) := by decide

/-- P-12: the lowest gap index, OLEN unchanged. -/
theorem test_pack_lowest_gap : fieldAfter (exec (.pack 6) gapped) (fun t => (t.erridx, t.olen, t.errcode)) =
    some (1, 0, .invalidSample) := by decide

/-! ### The host port (95_test_vectors.md section 2.7), W_MAX = 8 -/

/-- H-3 and H-5. -/
theorem test_host_write_ibuf : (hostWrite 0x10000 0xC8783C00 0b1111 ready).ibuf =
    [(0, 0x00), (1, 0x3C), (2, 0x78), (3, 0xC8)] ∧
    (hostWrite 0x10004 0x000000FF 0b0001 ready).ibuf = [(4, 0xFF)] := by decide

/-- H-6: lanes at or beyond OB_MAX read 0. -/
theorem test_host_read_obuf :
    (hostRead 0x20000 { ready with obuf := [(0, 0x1B), (1, 0xC0)] }).1 = 0x0000C01B := by decide

/-- H-8 and H-9. -/
theorem test_host_write_cmd : (hostWrite 0x00004 0x04000004 0b0111 ready).busy = false ∧
    (hostWrite 0x00004 0x04000004 0b1111 busySett).haz = true ∧
    (hostWrite 0x00004 0x04000004 0b1111 busySett).pend = 0x01326496 := by decide

/-- H-12. -/
theorem test_host_write_status :
    (hostWrite 0x00008 0x00000100 0b1111 { ready with aerr := true, haz := true }).statusWord = 0x600 := by decide

/-- P4, interleaving B: the write during BUSY is dropped and sets HAZ. -/
theorem test_lockout : fieldAfter
    (step { loaded with busy := true, turns := [.host], hostOps := [.write 0x10000 0xC8C8C8C8 0b1111] })
    (fun t => (t.haz, t.ibuf)) = some (true, [(0, 0), (1, 60), (2, 120), (3, 200)]) := by decide

/-! ### Witnesses for the hypotheses of the statements -/

theorem ready_inv : ready.Inv :=
  ⟨by decide, by decide, by decide, by decide, by decide, by decide, by decide, by decide⟩

theorem witness_StepKeepsInvariant : ∃ s t : State, s.Inv ∧ step s = .next t := ⟨ready, _, ready_inv, rfl⟩

theorem witness_StepKeepsOutputWritten :
    ∃ s t : State, s.OutputWritten ∧ s.olen.toNat = 1 ∧ step s = .next t :=
  ⟨{ ready with olen := 1, obuf := [(0, 0xC0)] }, _, by decide, by decide, rfl⟩

theorem witness_StepRunsDecodedCommand : ∃ (s : State) (i : Instr), s.busy = true ∧
    (s.hostOps = [] ∨ s.turns.head? ≠ some .host) ∧ decode s.pend = .ok i := ⟨busySett, _, rfl, .inl rfl, rfl⟩

theorem witness_StepRunsDecodedCommand_host_waits : ∃ (s : State) (i : Instr), s.busy = true ∧ s.hostOps ≠ [] ∧
    s.turns.head? ≠ some .host ∧ decode s.pend = .ok i :=
  ⟨{ busySett with hostOps := [.wait], turns := [.engine] }, _, rfl, by decide, by decide, rfl⟩

theorem witness_StepRunsHostTransaction : ∃ (s : State) (op : HostOp) (rest : List HostOp), s.hostOps = op :: rest ∧
    (s.busy = false ∨ s.turns.head? = some .host) := ⟨{ ready with hostOps := [.wait] }, _, _, rfl, .inl rfl⟩

theorem witness_StepRunsHostTransaction_busy : ∃ (s : State) (op : HostOp) (rest : List HostOp),
    s.hostOps = op :: rest ∧ s.busy = true ∧ s.turns.head? = some .host :=
  ⟨{ busySett with hostOps := [.wait], turns := [.host] }, _, _, rfl, rfl, rfl⟩

theorem witness_StepRaisesIllegalCommand : ∃ (s : State) (e : Illegal), s.busy = true ∧
    (s.hostOps = [] ∨ s.turns.head? ≠ some .host) ∧ decode s.pend = .error e :=
  ⟨{ busySett with pend := 0x05000000 }, _, rfl, .inl rfl, rfl⟩

theorem witness_IdleStepKeepsState : ∃ s : State, s.busy = false ∧ s.hostOps = [] := ⟨ready, rfl, rfl⟩

theorem witness_PendNeverReadWhileIdle : ∃ s t : State, s.busy = false ∧ step s = .next t := ⟨ready, _, rfl, rfl⟩

theorem witness_PendNeverReadWhileIdle_cmd : ∃ s t : State, s.busy = false ∧ s.hostOps ≠ [] ∧ step s = .next t :=
  ⟨{ ready with hostOps := [.write 0x00004 0x03000078 0b1111#4] }, _, rfl, by decide, rfl⟩

theorem witness_PlacedWordRunsNext : ∃ (nbits w : Nat) (i : Instr), decodeTableWord nbits w = some i :=
  ⟨32, 0x04000004, _, rfl⟩

theorem witness_EncodeDecodeAgree : ∃ (w : Word) (i : Instr), decode w = .ok i := ⟨0x0400FFFF, _, rfl⟩

theorem witness_ClassifyFirstMatchWins :
    ((0 : Byte).toNat = 0) ∧ ((51 : Byte).toNat ≠ 0 ∧ (50 : Byte).toNat < (51 : Byte).toNat ∧
      (51 : Byte).toNat ≤ (100 : Byte).toNat) ∧
    (¬ ((50 : Byte).toNat < (101 : Byte).toNat ∧ (101 : Byte).toNat ≤ (100 : Byte).toNat) ∧
      (100 : Byte).toNat < (101 : Byte).toNat ∧ (101 : Byte).toNat ≤ (150 : Byte).toNat) ∧
    (¬ ((50 : Byte).toNat < (151 : Byte).toNat ∧ (151 : Byte).toNat ≤ (100 : Byte).toNat) ∧
      ¬ ((100 : Byte).toNat < (151 : Byte).toNat ∧ (151 : Byte).toNat ≤ (150 : Byte).toNat) ∧
      (150 : Byte).toNat < (151 : Byte).toNat) ∧
    (¬ ((50 : Byte).toNat < (50 : Byte).toNat ∧ (50 : Byte).toNat ≤ (100 : Byte).toNat) ∧
      ¬ ((100 : Byte).toNat < (50 : Byte).toNat ∧ (50 : Byte).toNat ≤ (150 : Byte).toNat) ∧
      ¬ (150 : Byte).toNat < (50 : Byte).toNat) := by decide

theorem witness_ClassifyOrderedLaws : ∃ (a b c x y : Byte) (p q : Code), a.toNat ≤ b.toNat ∧ b.toNat ≤ c.toNat ∧
    x.toNat ≤ y.toNat ∧ classify x a b c = .code p ∧ classify y a b c = .code q :=
  ⟨50, 100, 150, 51, 151, 1, 3, by decide, by decide, by decide, by decide, by decide⟩

theorem witness_ClassifyDegenerateThresholds : (1 : Byte) ≠ 0 ∧ (255 : Byte) ≠ 0 := by decide

theorem witness_SettSemantics_loads_checked : ∃ (s : State) (a b c : Byte), s.ordchk = true ∧
    (s.ordchk = false ∨ (a.toNat ≤ b.toNat ∧ b.toNat ≤ c.toNat)) :=
  ⟨{ ready with ordchk := true }, 100, 100, 100, rfl, .inr (by decide)⟩

theorem witness_SettSemantics_order_error : ∃ (s : State) (a b c : Byte), s.ordchk = true ∧
    ¬ (a.toNat ≤ b.toNat ∧ b.toNat ≤ c.toNat) := ⟨{ ready with ordchk := true }, 50, 150, 149, rfl, by decide⟩

theorem witness_QuantSemantics : (State.resetFor 8).tvalid = false ∧
    (ready.tvalid = true ∧ classify 151 ready.t1 ready.t2 ready.t3 = .code 3) ∧
    (ready.tvalid = true ∧ classify 50 ready.t1 ready.t2 ready.t3 = .gap ∧ ({ ready with gap := true } : State).gap = true) ∧
    (ready.tvalid = true ∧ classify 1 ready.t1 ready.t2 ready.t3 = .gap ∧ ready.gap = false) := by decide

/-- A written byte, and two different ones nobody has written. -/
theorem witness_PackSamplesAreIbufOrDraws : ∃ (s : State) (n : Nat), (0 < n ∧ Memory.get s.ibuf 0 = some 0) ∧
    (4 < n ∧ Memory.get s.ibuf 4 = none) ∧ (5 < n ∧ Memory.get s.ibuf 5 = none) ∧ unwrittenBytes s.ibuf 0 n = 2 :=
  ⟨loaded, 6, by decide, by decide, by decide, by decide⟩

theorem witness_PackCompletes : ∃ (s : State) (n : Len), s.tvalid = true ∧ n.toNat ≤ s.wMax.toNat ∧
    (s.gap = true ∨ ∀ x ∈ packSamples s n.toNat, classify x s.t1 s.t2 s.t3 ≠ .gap) :=
  ⟨loaded, 4, rfl, by decide, .inr (by decide)⟩

/-- The whole buffer, four bytes of it never written, under policy (b). -/
theorem witness_PackCompletes_unwritten : ∃ (s : State) (n : Len), s.tvalid = true ∧ n.toNat = s.wMax.toNat ∧
    s.gap = true ∧ Memory.get s.ibuf 7 = none := ⟨{ loaded with gap := true }, 8, rfl, by decide, rfl, by decide⟩

theorem witness_PackCompletesOnLoadedLine : ∃ (s : State) (n : Len) (xs : List Byte), s.tvalid = true ∧
    n.toNat ≤ s.wMax.toNat ∧ xs.length = n.toNat ∧ s.LineLoaded xs ∧
    (s.gap = true ∨ ∀ x ∈ xs, classify x s.t1 s.t2 s.t3 ≠ .gap) :=
  ⟨loaded, 4, [0, 60, 120, 200], rfl, by decide, by decide, by decide, .inr (by decide)⟩

theorem witness_PackRefusesBeforeReading : (State.resetFor 8).tvalid = false ∧
    (ready.tvalid = true ∧ ready.wMax.toNat < (9 : Len).toNat) := by decide

theorem witness_PackRaisesInvalidSample : ∃ (s : State) (n : Len) (j : Nat) (x : Byte), s.tvalid = true ∧
    n.toNat ≤ s.wMax.toNat ∧ s.gap = false ∧ (packSamples s n.toNat)[j]? = some x ∧
    classify x s.t1 s.t2 s.t3 = .gap ∧
    ∀ k y, k < j → (packSamples s n.toNat)[k]? = some y → classify y s.t1 s.t2 s.t3 ≠ .gap := by
  refine ⟨gapped, 6, 1, 10, rfl, by decide, rfl, by decide, by decide, fun k y hk hy => ?_⟩
  obtain rfl : k = 0 := by omega
  have h : (packSamples gapped (6 : Len).toNat)[0]? = some 60 := by decide
  rw [h] at hy
  obtain rfl := Option.some.inj hy
  decide

theorem witness_PackReportsFirstCondition : ∃ (s t : State) (n : Len), exec (.pack n) s = .next t ∧
    t.errcode = .invalidSample := ⟨gapped, _, 6, rfl, rfl⟩

theorem witness_PackReportsFirstCondition_length : ∃ (s t : State) (n : Len), exec (.pack n) s = .next t ∧
    t.errcode = .lengthError := ⟨ready, _, 9, rfl, rfl⟩

theorem witness_PackOfNothing : ready.tvalid = true ∧ (State.resetFor 8).tvalid = false := by decide

theorem witness_PackGroupLocality : ∃ (s s' t t' : State) (n : Len) (k : Nat), exec (.pack n) s = .next t ∧
    exec (.pack n) s' = .next t' ∧ t.errcode = .none ∧ t'.errcode = .none ∧ s.t1 = s'.t1 ∧ s.t2 = s'.t2 ∧
    s.t3 = s'.t3 ∧ s.gap = s'.gap ∧ k < (n.toNat + 3) / 4 ∧
    ∀ i, 4 * k ≤ i → i < 4 * k + 4 → i < n.toNat →
      Memory.get s.ibuf i ≠ none ∧ Memory.get s.ibuf i = Memory.get s'.ibuf i := by
  refine ⟨fiveSamples, { fiveSamples with ibuf := [(0, 0), (1, 0), (2, 0), (3, 0), (4, 101)] }, _, _, 5, 1, rfl, rfl,
    rfl, rfl, rfl, rfl, rfl, rfl, by decide, fun i h1 _ h3 => ?_⟩
  have h5 : (5 : Len).toNat = 5 := rfl
  obtain rfl : i = 4 := by omega
  decide

theorem witness_PackZeroFillsLastGroup : ∃ (s t : State) (n : Len), exec (.pack n) s = .next t ∧ t.errcode = .none ∧
    0 < n.toNat % 4 := ⟨fiveSamples, _, 5, rfl, rfl, by decide⟩

theorem witness_PolicyBNeverRaisesInvalidSample : ∃ (s t : State) (i : Instr), s.gap = true ∧ exec i s = .next t :=
  ⟨{ gapped with gap := true }, _, .pack 6, rfl, rfl⟩

theorem witness_CompletionReport_error : ∃ (s t : State) (i : Instr), exec i s = .next t ∧ t.errcode ≠ .none :=
  ⟨State.resetFor 8, _, .quant 120, rfl, by decide⟩

theorem witness_CompletionReport_success : ∃ (s t : State) (i : Instr), exec i s = .next t ∧ t.errcode = .none :=
  ⟨ready, _, .quant 120, rfl, rfl⟩

theorem witness_RegisterCommandFrame : ∃ (s t : State) (i : Instr), (∀ n, i ≠ .pack n) ∧ exec i s = .next t :=
  ⟨loaded, _, .quant 30, fun _ => by simp, rfl⟩

theorem witness_PackFrame : ∃ (s t : State) (n : Len), exec (.pack n) s = .next t := ⟨loaded, _, 4, rfl⟩

theorem witness_PackFrame_length : ∃ (s t : State) (n : Len), exec (.pack n) s = .next t ∧
    (s.tvalid = false ∨ s.wMax.toNat < n.toNat) := ⟨loaded, _, 9, rfl, .inr (by decide)⟩

theorem witness_ThresholdsWrittenOnlyBySett : ∃ s t : State, step s = .next t ∧
    (t.t1, t.t2, t.t3, t.tvalid) ≠ (s.t1, s.t2, s.t3, s.tvalid) := ⟨busySett, _, rfl, by decide⟩

theorem witness_ConfigWrittenOnlyBySetcfg : ∃ s t : State, step s = .next t ∧
    (t.gap, t.ordchk) ≠ (s.gap, s.ordchk) := ⟨{ busySett with pend := 0x02000001 }, _, rfl, by decide⟩

theorem witness_ResultsWrittenOnlyByTheirCommand_qcode : ∃ s t : State, step s = .next t ∧ ¬ HostIssues s .reset ∧
    t.qcode ≠ s.qcode := ⟨{ ready with busy := true, pend := 0x03000078 }, _, rfl, by decide, by decide⟩

theorem witness_ResultsWrittenOnlyByTheirCommand_pack : ∃ s t : State, step s = .next t ∧ ¬ HostIssues s .reset ∧
    t.olen ≠ s.olen ∧ Memory.get t.obuf 0 ≠ Memory.get s.obuf 0 :=
  ⟨{ loaded with busy := true, pend := 0x04000004 }, _, rfl, by decide, by decide, by decide⟩

theorem witness_ResultsWrittenOnlyByTheirCommand_erridx : ∃ s t : State, step s = .next t ∧ ¬ HostIssues s .reset ∧
    t.erridx ≠ s.erridx := ⟨{ gapped with busy := true, pend := 0x04000006 }, _, rfl, by decide, by decide⟩

theorem witness_AerrIsStickyError_set : ∃ s t : State, step s = .next t ∧ mover s = some .engine ∧
    t.errcode ≠ .none := ⟨{ busySett with pend := 0 }, _, rfl, rfl, by decide⟩

theorem witness_AerrIsStickyError_clear : ∃ s t : State, step s = .next t ∧ s.aerr = true ∧ t.aerr = false :=
  ⟨{ ready with aerr := true, hostOps := [.write 0x00008 0x100 0b1111] }, _, rfl, rfl, rfl⟩

theorem witness_HazIsStickyHazard_set : ∃ s t : State, step s = .next t ∧ s.haz = false ∧ t.haz = true :=
  ⟨{ busySett with turns := [.host], hostOps := [.read 0x20000] }, _, rfl, rfl, rfl⟩

theorem witness_HazIsStickyHazard_clear : ∃ s t : State, step s = .next t ∧ s.haz = true ∧ t.haz = false :=
  ⟨{ ready with haz := true, hostOps := [.write 0x00008 0x200 0b1111] }, _, rfl, rfl, rfl⟩

theorem witness_LowAddressBitsIgnored : ∃ a b : PortAddr, a ≠ b ∧ a.toNat / 4 = b.toNat / 4 :=
  ⟨0x10002, 0x10000, by decide, by decide⟩

/-- Each clause, at the ends of its range. -/
theorem witness_IgnoredAccesses : (0x00020 ≤ wordOffset 0x00020 ∧ wordOffset 0x00020 ≤ 0x0FFFC) ∧
    (0x00020 ≤ wordOffset 0x0FFFF ∧ wordOffset 0x0FFFF ≤ 0x0FFFC) ∧ 0x30000 ≤ wordOffset 0x30000 ∧
    0x30000 ≤ wordOffset 0x3FFFF ∧ wordOffset 0x00003 = 0 ∧
    (0x0000C ≤ wordOffset 0x0000C ∧ wordOffset 0x0001F ≤ 0x0001C) := by decide

theorem witness_CmdWriteAcceptance : wordOffset 0x00004 = 0x00004 ∧ (0b0001 : Strobe) ≠ 0 ∧ busySett.busy = true ∧
    (ready.busy = false ∧ (0b0111 : Strobe) ≠ 0b1111#4) ∧ (0b1111 : Strobe) ≠ 0 := by decide

theorem witness_StatusWriteClears : wordOffset 0x00008 = 0x00008 ∧ (0b0010 : Strobe) ≠ 0b1111#4 := by decide

/-- The last word of the window, and the last word inside the buffer. -/
theorem witness_IbufWriteLanes : wordOffset 0x1FFFC = 0x10000 + 0xFFFC ∧ wordOffset 0x10004 = 0x10000 + 4 ∧
    ready.busy = false := by decide

/-- A byte inside the buffer, the first byte beyond it, in both windows. -/
theorem witness_WindowReadLanes : loaded.busy = false ∧ wordOffset 0x10000 = 0x10000 + 0 ∧
    (0 + 3 < loaded.wMax.toNat ∧ Memory.get loaded.ibuf (0 + 3) = some 200) ∧ loaded.wMax.toNat ≤ 8 + 0 ∧
    wordOffset 0x20000 = 0x20000 + 0 ∧ loaded.obMax ≤ 0 + 2 ∧
    (0 + 1 < loaded.obMax ∧ Memory.get ({ loaded with obuf := [(1, 5)] } : State).obuf (0 + 1) = some 5) := by decide

theorem witness_IbufWriteReadBack : wordOffset 0x10004 = 0x10000 + 4 ∧ ready.busy = false ∧
    4 + 3 < ready.wMax.toNat := by decide

theorem witness_BusyHazards : busySett.busy = true ∧ (0b1000 : Strobe) ≠ 0 ∧
    (wordOffset 0x00004 = 0x00004 ∧ InIbufWindow 0x10000 ∧ InIbufWindow 0x1FFFF ∧ InObufWindow 0x20000 ∧
      InObufWindow 0x2FFFF) ∧
    (¬ (wordOffset 0x00008 = 0x00004 ∨ InIbufWindow 0x00008 ∨ InObufWindow 0x00008) ∧ busySett.haz = false) ∧
    ¬ (InIbufWindow 0x30000 ∨ InObufWindow 0x30000) := by decide

theorem witness_AcceptedCommandIsFixed : ∃ (s : State) (op : HostOp), s.busy = true ∧ op ≠ .reset :=
  ⟨busySett, .write 0x10000 0 0b1111, rfl, by decide⟩

theorem witness_OutcomeIndependentOfInterleaving : ∃ (s t u : State) (ops : List HostOp), s.busy = true ∧
    .reset ∉ ops ∧ ops ≠ [] ∧ engineStep s = .next t ∧ engineStep (runHostOps ops s) = .next u :=
  ⟨{ loaded with busy := true, pend := 0x04000004 }, _, _, [.write 0x10000 0xC8C8C8C8 0b1111, .read 0x20000], rfl,
    by decide, by decide, rfl, rfl⟩

theorem witness_AcceptedCommandCompletes : ∃ s : State, s.busy = true ∧ s.turns = [.host, .host] ∧ s.hostOps ≠ [] :=
  ⟨{ busySett with turns := [.host, .host], hostOps := [.wait] }, rfl, rfl, by decide⟩

theorem witness_AcceptedCommandCompletes_no_reset : ∃ s : State, s.busy = true ∧ .reset ∉ s.hostOps ∧
    s.hostOps.length = 2 ∧ s.turns = [.host, .engine] :=
  ⟨{ busySett with turns := [.host, .engine], hostOps := [.wait, .read 0x20000] }, rfl, by decide, rfl, rfl⟩

/-- Each way into the premise, at a bound of its interval. -/
theorem witness_QuantCompletes : ready.tvalid = true ∧ ({ ready with gap := true } : State).gap = true ∧
    (0 : Byte).toNat = 0 ∧ (ready.t1.toNat < (51 : Byte).toNat ∧ (100 : Byte).toNat ≤ ready.t2.toNat) ∧
    (ready.t2.toNat < (101 : Byte).toNat ∧ (150 : Byte).toNat ≤ ready.t3.toNat) ∧
    ready.t3.toNat < (151 : Byte).toNat := by decide

/-- A word of IBUF no lane of which has been written, and one whose lanes all have. -/
theorem witness_WindowReadDraws : loaded.busy = false ∧ wordOffset 0x10004 = 0x10000 + 4 ∧
    unwrittenLanes loaded.ibuf loaded.wMax.toNat 4 4 = 4 ∧ unwrittenLanes loaded.ibuf loaded.wMax.toNat 0 4 = 0 ∧
    wordOffset 0x20000 = 0x20000 + 0 ∧ unwrittenLanes loaded.obuf loaded.obMax 0 4 = 2 := by decide

theorem witness_RunCommandReachesItsResult : ∃ (s : State) (i : Instr) (rest : List HostOp), s.busy = false ∧
    s.hostOps = runCommand i ++ rest := ⟨{ loaded with hostOps := runCommand (.pack 4) ++ [] }, _, _, rfl, rfl⟩

theorem witness_LoadLineLoadsTheScanline : ∃ (s : State) (xs : List Byte) (rest : List HostOp), s.busy = false ∧
    xs.length ≤ s.wMax.toNat ∧ s.hostOps = loadLine xs ++ rest ∧ xs.length = 5 :=
  ⟨{ ready with hostOps := loadLine [0, 60, 120, 200, 151] ++ [] }, _, [], rfl, by decide, rfl, rfl⟩

end Sys2Proof.Tests
end

section
/-! The state family of 10_state.md: the reset values (R41), the constant capacity register (R23), and the accumulated
error flag (R28). -/

namespace Sys2Proof.Machine

/-! ### CAPS at the host port -/

/-- HostRead of CAPS has no side effect (R23, R71). -/
@[simp] theorem hostRead_caps (s : State) : hostRead 0x00000 s = (s.capsWord, s) := rfl

/-- CAPS is read-only (R23, R72). -/
@[simp] theorem hostWrite_caps (d : Word) (strb : Strobe) (s : State) : hostWrite 0x00000 d strb s = s := by
  have hr : regionOf 0x00000 = .caps := rfl
  simp only [hostWrite, hr, ite_self]

/-! ### What a host transaction does to W_MAX and AERR -/

@[simp] theorem hostReadLogged_wMax (a : PortAddr) (s : State) : (hostReadLogged a s).wMax = s.wMax := by
  rw [hostReadLogged, State.logRead_wMax]
  rcases hostRead_cases a s with h | ⟨-, h⟩ | ⟨-, d, h⟩ <;> rw [h]
  · exact s.setHaz_wMax
  · exact s.setDraws_wMax d

@[simp] theorem hostReadLogged_aerr (a : PortAddr) (s : State) : (hostReadLogged a s).aerr = s.aerr := by
  rw [hostReadLogged, State.logRead_aerr]
  rcases hostRead_cases a s with h | ⟨-, h⟩ | ⟨-, d, h⟩ <;> rw [h]
  · exact s.setHaz_aerr
  · exact s.setDraws_aerr d

@[simp] theorem waitPoll_wMax (s : State) : (waitPoll s).wMax = s.wMax := by
  rw [waitPoll_eq]
  split <;> rfl

@[simp] theorem waitPoll_aerr (s : State) : (waitPoll s).aerr = s.aerr := by
  rw [waitPoll_eq]
  split <;> rfl

@[simp] theorem hostWrite_wMax (a : PortAddr) (d : Word) (strb : Strobe) (s : State) :
    (hostWrite a d strb s).wMax = s.wMax := by
  rcases hostWrite_cases a d strb s with h | ⟨-, h⟩ | ⟨-, -, -, h⟩ | ⟨-, -, h⟩ | ⟨-, b, -, h⟩ <;> rw [h] <;> rfl

/-- The only host write that clears AERR is the W1C write of R67. -/
theorem hostWrite_aerr_falls {a : PortAddr} {d : Word} {strb : Strobe} {s : State} (hs : s.aerr = true)
    (ht : (hostWrite a d strb s).aerr = false) :
    strb = 0b1111#4 ∧ wordOffset a = 0x00008 ∧ d.getLsbD 8 = true := by
  rcases hostWrite_cases a d strb s with h | ⟨-, h⟩ | ⟨-, -, -, h⟩ | ⟨hr, hstrb, h⟩ | ⟨-, b, -, h⟩
  case inr.inr.inr.inl =>
    rw [h, State.clearSticky_aerr, hs, Bool.true_and] at ht
    exact ⟨hstrb, regionOf_status hr, by simpa using ht⟩
  -- every other write leaves AERR as it was
  all_goals simp [h, hs] at ht

/-- W_MAX is constant: the reset event keeps it too (R23). -/
theorem runHostOp_wMax (op : HostOp) (s : State) : (runHostOp op s).wMax = s.wMax := by
  cases op with
  | read a => exact hostReadLogged_wMax a s
  | write a d strb => exact hostWrite_wMax a d strb s
  | wait => exact waitPoll_wMax s
  | reset => exact s.resetEvent_wMax

/-- A host operation that clears AERR is a reset or a W1C write (R28). -/
theorem runHostOp_aerr_falls {op : HostOp} {s : State} (hs : s.aerr = true) (ht : (runHostOp op s).aerr = false) :
    op = .reset ∨ ∃ a d, op = .write a d 0b1111#4 ∧ wordOffset a = 0x00008 ∧ d.getLsbD 8 = true := by
  cases op with
  | read a => simp [runHostOp, hs] at ht
  | write a d strb =>
    obtain ⟨rfl, ha, hd⟩ := hostWrite_aerr_falls hs ht
    exact .inr ⟨a, d, rfl, ha, hd⟩
  | wait => simp [runHostOp, hs] at ht
  | reset => exact .inl rfl

/-! ### How a command ends -/

/-- The command that was executing in `s` ends in `t`: by `finish` or by `raise` (R202), from a state `u` that has
W_MAX and AERR as they were. -/
def Completes (s t : State) : Prop :=
  ∃ u : State, u.wMax = s.wMax ∧ u.aerr = s.aerr ∧ (t = u.finish ∨ ∃ c, t = u.raiseError c)

theorem Completes.of_finish {s u : State} (hw : u.wMax = s.wMax) (ha : u.aerr = s.aerr) : Completes s u.finish :=
  ⟨u, hw, ha, .inl rfl⟩

theorem Completes.of_raiseError {s u : State} (c : Condition) (hw : u.wMax = s.wMax) (ha : u.aerr = s.aerr) :
    Completes s (u.raiseError c) :=
  ⟨u, hw, ha, .inr ⟨c, rfl⟩⟩

theorem Completes.wMax_eq {s t : State} (h : Completes s t) : t.wMax = s.wMax := by
  obtain ⟨u, hw, -, rfl | ⟨c, rfl⟩⟩ := h
  · exact hw
  · exact hw

/-- A completion with an error sets AERR (R28). -/
theorem Completes.aerr_of_errcode {s t : State} (h : Completes s t) (he : t.errcode ≠ .none) : t.aerr = true := by
  obtain ⟨u, -, -, rfl | ⟨c, rfl⟩⟩ := h
  · exact absurd u.finish_errcode he
  · exact u.raiseError_aerr c

/-- No command clears AERR (R28). -/
theorem Completes.aerr_sticky {s t : State} (h : Completes s t) (hs : s.aerr = true) : t.aerr = true := by
  obtain ⟨u, -, ha, rfl | ⟨c, rfl⟩⟩ := h
  · exact ha.trans hs
  · exact u.raiseError_aerr c

/-- Every path of every command ends in `finish` or `raise` (R240). -/
theorem exec_completes {i : Instr} {s t : State} (h : exec i s = .next t) : Completes s t := by
  cases i with
  | sett a b c =>
    rcases execSett_cases h with ⟨-, -, rfl⟩ | ⟨-, rfl⟩
    · exact .of_raiseError _ rfl rfl
    · exact .of_finish rfl rfl
  | setcfg g o =>
    obtain rfl : (s.loadConfig g o).finish = t := Host.Outcome.next.inj h
    exact .of_finish rfl rfl
  | quant x =>
    rcases execQuant_cases h with ⟨-, rfl⟩ | ⟨-, -, -, rfl⟩ | ⟨-, -, rfl⟩
    · exact .of_raiseError _ rfl rfl
    · exact .of_raiseError _ rfl rfl
    · exact .of_finish rfl rfl
  | pack n =>
    rcases execPack_cases h with ⟨-, rfl⟩ | ⟨-, -, rfl⟩ | ⟨-, -, -, -, -, rfl, -⟩ | ⟨-, -, -, rfl⟩
    · exact .of_raiseError _ rfl rfl
    · exact .of_raiseError _ rfl rfl
    · exact .of_raiseError _ rfl rfl
    · exact .of_finish rfl rfl

/-- One step, by the agent that moves: nothing, one host operation, or the completion of the pending command, ILLEGAL
words among them (R208, R239, R240). -/
theorem step_agent_cases {s t : State} (h : step s = .next t) :
    (mover s = none ∧ t = s.endTurn) ∨
      (∃ op rest, HostIssues s op ∧ t = runHostOp op (s.endTurn.setHostOps rest)) ∨
      (mover s = some .engine ∧ Completes s.endTurn t) := by
  rcases step_cases h with hn | ⟨op, rest, hi, -, ht⟩ | ⟨i, ⟨hm, -⟩, hx⟩ | ⟨e, hm, -, rfl⟩
  · exact .inl hn
  · exact .inr (.inl ⟨op, rest, hi, ht⟩)
  · exact .inr (.inr ⟨hm, exec_completes hx⟩)
  · exact .inr (.inr ⟨hm, .of_raiseError _ rfl rfl⟩)

/-- No step changes W_MAX (R23). -/
theorem step_wMax {s t : State} (h : step s = .next t) : t.wMax = s.wMax := by
  rcases step_agent_cases h with ⟨-, rfl⟩ | ⟨op, rest, -, rfl⟩ | ⟨-, hc⟩
  · exact s.endTurn_wMax
  · exact runHostOp_wMax op _
  · exact hc.wMax_eq

/-- The engine's step is the completion of the pending command. -/
theorem step_completes {s t : State} (h : step s = .next t) (hm : mover s = some .engine) : Completes s.endTurn t := by
  rcases step_agent_cases h with ⟨hn, -⟩ | ⟨op, rest, ⟨hh, -⟩, -⟩ | ⟨-, hc⟩
  · simp [hm] at hn
  · simp [hm] at hh
  · exact hc

/-- A step that clears AERR is a reset or a W1C write of the host (R28). -/
theorem step_aerr_falls {s t : State} (h : step s = .next t) (hs : s.aerr = true) (ht : t.aerr = false) :
    HostIssues s .reset ∨
      ∃ a d, HostIssues s (.write a d 0b1111#4) ∧ wordOffset a = 0x00008 ∧ d.getLsbD 8 = true := by
  rcases step_agent_cases h with ⟨-, rfl⟩ | ⟨op, rest, hi, rfl⟩ | ⟨-, hc⟩
  · simp [hs] at ht
  · rcases runHostOp_aerr_falls (s := s.endTurn.setHostOps rest) hs ht with rfl | ⟨a, d, rfl, ha, hd⟩
    · exact .inl hi
    · exact .inr ⟨a, d, hi, ha, hd⟩
  · simp [hc.aerr_sticky hs] at ht

/-! ### The obligations -/

/-- Settles O43: a completion ends in `finish` or `raise`, and AERR falls only at the host port. -/
theorem aerrIsStickyError : Obligations.AerrIsStickyError := by
  unfold Obligations.AerrIsStickyError
  intro s t h
  exact ⟨fun hm he => (step_completes h hm).aerr_of_errcode he, step_aerr_falls h⟩

/-- Settles O39: CAPS is a read-only view of W_MAX, which every step keeps. -/
theorem capacityNeverChanges : Obligations.CapacityNeverChanges := by
  unfold Obligations.CapacityNeverChanges
  exact ⟨congrArg Prod.fst (hostRead_caps State.reset), hostRead_caps, fun s d strb => hostWrite_caps d strb s,
    fun _ _ => step_wMax⟩

/-- Settles O1: the fields of the reset state, and both buffers empty (R40, R41). -/
theorem resetRegisterValues : Obligations.ResetRegisterValues := by
  unfold Obligations.ResetRegisterValues
  exact ⟨congrArg Prod.fst (hostRead_caps State.reset), rfl, rfl, rfl, rfl, rfl, rfl, rfl, rfl, rfl, rfl, rfl, rfl, rfl,
    Memory.get_nil, Memory.get_nil⟩

end Sys2Proof.Machine
end

section
/-! The memory family of 20_memory.md: address bits 1:0 (R63), acceptance of a command (R66), and the write to STATUS
(R67). -/

namespace Sys2Proof.Machine

/-! ### The region alone decides a transaction -/

/-- HostRead looks at an offset only through its region (R71). -/
theorem hostRead_congr_region {a b : PortAddr} (h : regionOf a = regionOf b) (s : State) :
    hostRead a s = hostRead b s := by
  unfold hostRead
  rw [h]

/-- HostWrite looks at an offset only through its region (R72). -/
theorem hostWrite_congr_region {a b : PortAddr} (h : regionOf a = regionOf b) (d : Word) (strb : Strobe) (s : State) :
    hostWrite a d strb s = hostWrite b d strb s := by
  unfold hostWrite
  rw [h]

/-! ### Writes to CMD and to STATUS -/

theorem regionOf_eq_cmd_iff {a : PortAddr} : regionOf a = .cmd ↔ wordOffset a = 0x00004 :=
  ⟨regionOf_cmd, fun h => by simp [regionOf, h]⟩

theorem regionOf_eq_status_iff {a : PortAddr} : regionOf a = .status ↔ wordOffset a = 0x00008 :=
  ⟨regionOf_status, fun h => by simp [regionOf, h]⟩

theorem hostWrite_of_cmd {a : PortAddr} {strb : Strobe} (ha : wordOffset a = 0x00004) (hs : strb ≠ 0) (d : Word)
    (s : State) : hostWrite a d strb s = writeCmd d strb s := by
  unfold hostWrite
  rw [if_neg hs, regionOf_eq_cmd_iff.2 ha]

/-- A write to STATUS with no strobe is no case apart: it too lacks one of the four strobes (R67, R72). -/
theorem hostWrite_of_status {a : PortAddr} (ha : wordOffset a = 0x00008) (d : Word) (strb : Strobe) (s : State) :
    hostWrite a d strb s = writeStatus d strb s := by
  by_cases hs : strb = 0
  · subst hs; rfl
  · unfold hostWrite
    rw [if_neg hs, regionOf_eq_status_iff.2 ha]

theorem writeCmd_busy {s : State} (hb : s.busy = true) (d : Word) (strb : Strobe) :
    writeCmd d strb s = s.setHaz := if_pos hb

theorem writeCmd_idle {s : State} (hb : s.busy = false) (d : Word) (strb : Strobe) :
    writeCmd d strb s = if strb = 0b1111#4 then s.acceptCommand d else s :=
  if_neg (Bool.eq_false_iff.1 hb)

/-- W1C, bit by bit: a flag is cleared where its bit is 1 and kept elsewhere (R67). -/
theorem State.clearSticky_eq_ite (s : State) (clearAerr clearHaz : Bool) :
    s.clearSticky clearAerr clearHaz =
      { s with aerr := if clearAerr then false else s.aerr, haz := if clearHaz then false else s.haz } := by
  cases clearAerr <;> cases clearHaz <;> simp [State.clearSticky]

/-! ### The obligations -/

/-- Settles O45: two offsets equal but for bits 1:0 lie in one region, at one word of it. -/
theorem lowAddressBitsIgnored : Obligations.LowAddressBitsIgnored := by
  unfold Obligations.LowAddressBitsIgnored
  intro a b s h
  have sameRegion : regionOf a = regionOf b := regionOf_congr h
  exact ⟨hostRead_congr_region sameRegion s, fun d strb => hostWrite_congr_region sameRegion d strb s⟩

/-- Settles O49: the write is `writeStatus` at any value of BUSY and any strobes. -/
theorem statusWriteClears : Obligations.StatusWriteClears := by
  unfold Obligations.StatusWriteClears
  intro a d strb s ha
  rw [hostWrite_of_status ha]
  refine ⟨fun full => ?_, fun partialStrobe => if_neg partialStrobe⟩
  calc writeStatus d strb s
      = s.clearSticky (d.getLsbD 8) (d.getLsbD 9) := if_pos full
    _ = _ := s.clearSticky_eq_ite _ _

/-- Settles O48: the write is `writeCmd`, whose branches are the three outcomes of R66. -/
theorem cmdWriteAcceptance : Obligations.CmdWriteAcceptance := by
  unfold Obligations.CmdWriteAcceptance
  intro a d strb s ha hs
  rw [hostWrite_of_cmd ha hs]
  refine ⟨fun busy => writeCmd_busy busy d strb, fun idle notFull => ?_, fun idle full => ?_⟩
  · rw [writeCmd_idle idle, if_neg notFull]
  · rw [writeCmd_idle idle, if_pos full, State.acceptCommand]

end Sys2Proof.Machine
end

section
/-! The configuration family of 40_configuration.md: SETT on both paths (R122), and the words and the effect of SETCFG
(R125). -/

namespace Sys2Proof.Machine

/-! ### SETT -/

/-- The ordering check compares the thresholds as numbers (R12, R122). -/
theorem ordered_iff_toNat {a b c : Byte} : Ordered a b c ↔ a.toNat ≤ b.toNat ∧ b.toNat ≤ c.toNat := by
  simp only [Ordered, BitVec.le_def]

/-- SETT loads any triple without ORDCHK, and under it an ordered one (R122). -/
theorem execSett_of_accepted {s : State} {a b c : Byte} (h : s.ordchk = false ∨ Ordered a b c) :
    execSett a b c s = .next (s.loadThresholds a b c).finish := by
  apply if_neg
  rintro ⟨checked, unordered⟩
  rcases h with unchecked | ordered
  · simp [checked] at unchecked
  · exact unordered ordered

theorem execSett_of_refused {s : State} {a b c : Byte} (checked : s.ordchk = true) (unordered : ¬ Ordered a b c) :
    execSett a b c s = .next (s.raiseError .orderError) :=
  if_pos ⟨checked, unordered⟩

/-! ### SETCFG -/

/-- The words of SETCFG are those of its row: a word of the row has opcode 0x02, so no earlier row takes it (R92). -/
theorem decode_eq_setcfg_iff {w : Word} {g o : Bool} :
    decode w = .ok (.setcfg g o) ↔
      w &&& 0xFFFFFFFC#32 = 0x02000000#32 ∧ w.getLsbD 0 = g ∧ w.getLsbD 1 = o := by
  rw [decode_eq, setcfg_row_iff]
  by_cases row : w.toNat / 2 ^ 2 = 2 ^ 23
  · have notSett : w.toNat / 2 ^ 24 ≠ 1 := by omega
    rw [if_neg notSett, if_pos row]
    simp only [row, true_and, Except.ok.injEq, Instr.setcfg.injEq]
  · -- the other rows answer another command, or none
    simp only [row, if_false, false_and, iff_false]
    split_ifs <;> simp

/-- GAP is bit 0 of the word and ORDCHK bit 1, under opcode 0x02 (R92). -/
theorem encode_setcfg (g o : Bool) :
    encode (.setcfg g o) =
      0x02000000#32 ||| (BitVec.ofBool o).setWidth 32 <<< 1 ||| (BitVec.ofBool g).setWidth 32 := by
  cases g <;> cases o <;> rfl

/-! ### The obligations -/

/-- Settles O23: the two branches of SETT, with the ordering check on the thresholds' numbers. -/
theorem settSemantics : Obligations.SettSemantics := by
  unfold Obligations.SettSemantics
  intro s a b c
  rw [← ordered_iff_toNat]
  exact ⟨execSett_of_accepted, execSett_of_refused⟩

/-- Settles O24: SETCFG has one row of the decoder, and one path. -/
theorem setcfgSemantics : Obligations.SetcfgSemantics := by
  unfold Obligations.SetcfgSemantics
  refine ⟨fun w => ⟨?_, fun row => ?_⟩, fun s g o => ⟨encode_setcfg g o, rfl⟩⟩
  · rintro ⟨g, o, h⟩
    exact (decode_eq_setcfg_iff.1 h).1
  · exact ⟨w.getLsbD 0, w.getLsbD 1, decode_eq_setcfg_iff.2 ⟨row, rfl, rfl⟩⟩

end Sys2Proof.Machine
end

section
/-! The quantizer family of 41_quantizer.md: the branches of QC (R140), its laws for ordered thresholds (R143), and
QUANT on every path (R145). -/

namespace Sys2Proof.Machine

/-! ### The branches of QC, in order -/

section Branches
variable {x a b c : Byte}

theorem classify_of_zero (zero : x.toNat = 0) : classify x a b c = .code 0 := by
  rw [classify_toNat, if_pos zero]

theorem classify_of_first (nonzero : x.toNat ≠ 0) (first : a.toNat < x.toNat ∧ x.toNat ≤ b.toNat) :
    classify x a b c = .code 1 := by
  rw [classify_toNat, if_neg nonzero, if_pos first]

theorem classify_of_second (nonzero : x.toNat ≠ 0) (notFirst : ¬ (a.toNat < x.toNat ∧ x.toNat ≤ b.toNat))
    (second : b.toNat < x.toNat ∧ x.toNat ≤ c.toNat) : classify x a b c = .code 2 := by
  rw [classify_toNat, if_neg nonzero, if_neg notFirst, if_pos second]

theorem classify_of_third (nonzero : x.toNat ≠ 0) (notFirst : ¬ (a.toNat < x.toNat ∧ x.toNat ≤ b.toNat))
    (notSecond : ¬ (b.toNat < x.toNat ∧ x.toNat ≤ c.toNat)) (third : c.toNat < x.toNat) :
    classify x a b c = .code 3 := by
  rw [classify_toNat, if_neg nonzero, if_neg notFirst, if_neg notSecond, if_pos third]

theorem classify_of_none (nonzero : x.toNat ≠ 0) (notFirst : ¬ (a.toNat < x.toNat ∧ x.toNat ≤ b.toNat))
    (notSecond : ¬ (b.toNat < x.toNat ∧ x.toNat ≤ c.toNat)) (notThird : ¬ c.toNat < x.toNat) :
    classify x a b c = .gap := by
  rw [classify_toNat, if_neg nonzero, if_neg notFirst, if_neg notSecond, if_neg notThird]

end Branches

/-! ### Ordered thresholds -/

section OrderedThresholds
variable {a b c : Byte} (hab : a.toNat ≤ b.toNat) (hbc : b.toNat ≤ c.toNat)
include hab hbc

/-- The partition of R143: a sample is 0, or lies in one of the four intervals that ordered thresholds cut. -/
theorem classify_cases_of_ordered (x : Byte) :
    (x.toNat = 0 ∧ classify x a b c = .code 0) ∨
      ((0 < x.toNat ∧ x.toNat ≤ a.toNat) ∧ classify x a b c = .gap) ∨
      ((a.toNat < x.toNat ∧ x.toNat ≤ b.toNat) ∧ classify x a b c = .code 1) ∨
      ((b.toNat < x.toNat ∧ x.toNat ≤ c.toNat) ∧ classify x a b c = .code 2) ∨
      (c.toNat < x.toNat ∧ classify x a b c = .code 3) := by
  have partition : x.toNat = 0 ∨ (0 < x.toNat ∧ x.toNat ≤ a.toNat) ∨ (a.toNat < x.toNat ∧ x.toNat ≤ b.toNat) ∨
      (b.toNat < x.toNat ∧ x.toNat ≤ c.toNat) ∨ c.toNat < x.toNat := by omega
  rcases partition with zero | low | first | second | third
  · exact .inl ⟨zero, classify_of_zero zero⟩
  · exact .inr (.inl ⟨low, classify_of_none (by omega) (by omega) (by omega) (by omega)⟩)
  · exact .inr (.inr (.inl ⟨first, classify_of_first (by omega) first⟩))
  · exact .inr (.inr (.inr (.inl ⟨second, classify_of_second (by omega) (by omega) second⟩)))
  · exact .inr (.inr (.inr (.inr ⟨third, classify_of_third (by omega) (by omega) (by omega) third⟩)))

/-- The intervals of R143. -/
theorem classify_eq_iff_of_ordered (x : Byte) :
    (classify x a b c = .code 0 ↔ x.toNat = 0) ∧
      (classify x a b c = .code 1 ↔ a.toNat < x.toNat ∧ x.toNat ≤ b.toNat) ∧
      (classify x a b c = .code 2 ↔ b.toNat < x.toNat ∧ x.toNat ≤ c.toNat) ∧
      (classify x a b c = .code 3 ↔ c.toNat < x.toNat ∧ x.toNat ≤ 255) ∧
      (classify x a b c = .gap ↔ 0 < x.toNat ∧ x.toNat ≤ a.toNat) := by
  have bound : x.toNat ≤ 255 := Nat.le_of_lt_succ x.isLt
  rcases classify_cases_of_ordered hab hbc x with ⟨hx, e⟩ | ⟨hx, e⟩ | ⟨hx, e⟩ | ⟨hx, e⟩ | ⟨hx, e⟩ <;>
    simp [e] <;> omega

/-- The code of a class counts the thresholds below the sample: the reason QC is monotone (R143). -/
theorem codeOrZero_classify_eq_countP (x : Byte) :
    (classify x a b c).codeOrZero.toNat = [a, b, c].countP (·.toNat < x.toNat) := by
  rcases classify_cases_of_ordered hab hbc x with ⟨hx, e⟩ | ⟨hx, e⟩ | ⟨hx, e⟩ | ⟨hx, e⟩ | ⟨hx, e⟩
  all_goals
    simp only [e, SampleClass.codeOrZero, List.countP_cons, List.countP_nil, decide_eq_true_eq, BitVec.ofNat_eq_ofNat,
      BitVec.toNat_ofNat]
    split_ifs <;> omega

/-- Monotonicity, with the code 0 that policy (b) gives a gap (R142, R143). -/
theorem codeOrZero_classify_mono {x y : Byte} (hxy : x.toNat ≤ y.toNat) :
    (classify x a b c).codeOrZero.toNat ≤ (classify y a b c).codeOrZero.toNat := by
  rw [codeOrZero_classify_eq_countP hab hbc, codeOrZero_classify_eq_countP hab hbc]
  refine List.countP_mono_left fun t _ ht => ?_
  simp only [decide_eq_true_eq] at ht ⊢
  exact ht.trans_le hxy

end OrderedThresholds

/-! ### The paths of QUANT -/

theorem execQuant_of_noThresholds {s : State} (unset : s.tvalid = false) (x : Byte) :
    execQuant x s = .next (s.raiseError .noThresholds) := if_pos unset

theorem execQuant_of_ok {s : State} {x : Byte} {c : Code} (loaded : s.tvalid = true) (h : codeOf s x 0 = .ok c) :
    execQuant x s = .next (s.setQcode c).finish := by
  simp [execQuant, loaded, h]

theorem execQuant_of_error {s : State} {x : Byte} {e : Condition} (loaded : s.tvalid = true)
    (h : codeOf s x 0 = .error e) : execQuant x s = .next (s.raiseError e) := by
  simp [execQuant, loaded, h]

/-! ### The obligations -/

/-- Settles O19: ordered thresholds partition the samples, and a code counts the thresholds below its sample. -/
theorem classifyOrderedLaws : Obligations.ClassifyOrderedLaws := by
  unfold Obligations.ClassifyOrderedLaws
  intro a b c hab hbc
  refine ⟨classify_eq_iff_of_ordered hab hbc, fun x y p q hxy hp hq => ?_⟩
  have mono := codeOrZero_classify_mono hab hbc hxy
  rwa [hp, hq] at mono

/-- Settles O18: the branches of QC, each under the failure of those before it. -/
theorem classifyFirstMatchWins : Obligations.ClassifyFirstMatchWins := by
  unfold Obligations.ClassifyFirstMatchWins
  exact fun _ _ _ _ => ⟨classify_of_zero, classify_of_first, classify_of_second, classify_of_third, classify_of_none⟩

/-- Settles O25: the class of the sample and the gap policy choose the path, and each path's next state is its own
updates. -/
theorem quantSemantics : Obligations.QuantSemantics := by
  unfold Obligations.QuantSemantics
  intro s x
  refine ⟨fun unset => execQuant_of_noThresholds unset x, fun loaded c hc => ?_, fun loaded hc gap => ?_,
    fun loaded hc gap => ?_⟩
  · have coded : codeOf s x 0 = .ok c := by simp [codeOf_eq, hc, SampleClass.codeOrZero]
    exact execQuant_of_ok loaded coded
  · have coded : codeOf s x 0 = .ok 0 := by simp [codeOf_eq, hc, gap, SampleClass.codeOrZero]
    exact execQuant_of_ok loaded coded
  · have refused : codeOf s x 0 = .error (.invalidSample 0) := by simp [codeOf_eq, hc, gap]
    exact execQuant_of_error loaded refused

end Sys2Proof.Machine
end

section
/-! The packer family of 42_packer.md: the codes of a packed byte are its base-4 digits (R160), and unpacking reads them
back (R162). -/

namespace Sys2Proof.Machine

/-! ### The codes as base-4 digits -/

/-- A shift of R160 loses no bit: the byte has room for each code at its position. -/
theorem toNat_setWidth_shiftLeft (c : Code) {k : Nat} (hk : k ≤ 6) : (c.setWidth 8 <<< k).toNat = c.toNat <<< k := by
  have room : 2 ^ (2 + k) ≤ 2 ^ 8 := Nat.pow_le_pow_right (by decide) (by omega)
  rw [BitVec.toNat_shiftLeft, BitVec.toNat_setWidth_of_le (by decide), Nat.mod_eq_of_lt]
  exact (Nat.shiftLeft_lt c.isLt).trans_le room

/-- The `|` of R160 appends one more base-4 digit, with no carry. -/
theorem shiftLeft_or_code (x : Nat) (c : Code) : x <<< 2 ||| c.toNat = x * 4 + c.toNat := by
  rw [← Nat.shiftLeft_add_eq_or_of_lt c.isLt, Nat.shiftLeft_eq]

theorem pack4_toNat (a b c d : Code) :
    (pack4 a b c d).toNat = a.toNat * 64 + b.toNat * 16 + c.toNat * 4 + d.toNat :=
  calc (pack4 a b c d).toNat
    _ = a.toNat <<< 6 ||| b.toNat <<< 4 ||| c.toNat <<< 2 ||| d.toNat := by
      simp only [pack4, BitVec.toNat_or, toNat_setWidth_shiftLeft, Nat.reduceLeDiff,
        BitVec.toNat_setWidth_of_le (show 2 ≤ 8 by decide)]
    _ = ((a.toNat <<< 2 ||| b.toNat) <<< 2 ||| c.toNat) <<< 2 ||| d.toNat := by
      simp only [Nat.shiftLeft_or_distrib, ← Nat.shiftLeft_add, Nat.reduceAdd]
    _ = ((a.toNat * 4 + b.toNat) * 4 + c.toNat) * 4 + d.toNat := by simp only [shiftLeft_or_code]
    _ = a.toNat * 64 + b.toNat * 16 + c.toNat * 4 + d.toNat := by omega

theorem unpackCode_toNat (v : Byte) (p : Nat) : (unpackCode v p).toNat = v.toNat / 2 ^ (8 - 2 * p) % 4 := by
  simp [unpackCode, Nat.shiftRight_eq_div_pow]

/-! ### Unpacking and packing are inverse -/

/-- Each code is the digit that its position reads (R161). -/
theorem unpackCode_pack4 (a b c d : Code) :
    unpackCode (pack4 a b c d) 1 = a ∧ unpackCode (pack4 a b c d) 2 = b ∧
      unpackCode (pack4 a b c d) 3 = c ∧ unpackCode (pack4 a b c d) 4 = d := by
  have ha := a.isLt
  have hb := b.isLt
  have hc := c.isLt
  have hd := d.isLt
  refine ⟨?_, ?_, ?_, ?_⟩ <;>
    · apply BitVec.eq_of_toNat_eq
      rw [unpackCode_toNat, pack4_toNat]
      omega

/-- A byte is its four base-4 digits put together. -/
theorem pack4_unpackCode (v : Byte) :
    pack4 (unpackCode v 1) (unpackCode v 2) (unpackCode v 3) (unpackCode v 4) = v := by
  have hv := v.isLt
  apply BitVec.eq_of_toNat_eq
  simp only [pack4_toNat, unpackCode_toNat]
  omega

/-! ### The obligations -/

/-- Settles O21: the four codes are the base-4 digits of their packed byte. -/
theorem pack4IsWeightedSum : Obligations.Pack4IsWeightedSum := by
  unfold Obligations.Pack4IsWeightedSum
  exact pack4_toNat

/-- Settles O22: base-4 digits determine a byte, and a byte its digits. -/
theorem unpackInvertsPack4 : Obligations.UnpackInvertsPack4 := by
  unfold Obligations.UnpackInvertsPack4
  exact ⟨unpackCode_pack4, pack4_unpackCode⟩

end Sys2Proof.Machine
end

section
/-! The reset family of 70_reset_and_hazards.md: the reset event (R230). -/

namespace Sys2Proof.Machine

/-- The reset input is the reset event in every state, BUSY or not (R230). -/
@[simp] theorem runHostOp_reset (s : State) : runHostOp .reset s = s.resetEvent := rfl

/-- Settles O2: each field of the reset event's state by its own law, and both buffers empty (R40, R41). -/
theorem resetEventRestoresResetValues : Obligations.ResetEventRestoresResetValues := by
  unfold Obligations.ResetEventRestoresResetValues
  intro s
  refine ⟨s.resetEvent, runHostOp_reset s, s.resetEvent_wMax, s.resetEvent_busy, s.resetEvent_errcode,
    s.resetEvent_aerr, s.resetEvent_haz, s.resetEvent_tvalid, s.resetEvent_gap, s.resetEvent_ordchk, s.resetEvent_t1,
    s.resetEvent_t2, s.resetEvent_t3, s.resetEvent_qcode, s.resetEvent_olen, s.resetEvent_erridx, fun i => ?_,
    fun i => ?_⟩
  · rw [s.resetEvent_ibuf, Memory.get_nil]
  · rw [s.resetEvent_obuf, Memory.get_nil]

end Sys2Proof.Machine
end

section
/-! The encoding family of 30_encoding.md: decoder and encoder are inverse (R90, R95), the legal words (R96), and the
assembler's words (R99). Each field is read as a quotient of the word's number. -/

namespace Sys2Proof

/-! ### The fields of a word as numbers -/

/-- A field of a word is a digit of its number. -/
theorem toNat_extractLsb'_eq (w : Word) (low width : Nat) :
    (w.extractLsb' low width).toNat = w.toNat / 2 ^ low % 2 ^ width := by
  rw [BitVec.extractLsb'_toNat, Nat.shiftRight_eq_div_pow]

/-- A bit of a word as a number. -/
theorem toNat_getLsbD_eq (w : Word) (k : Nat) : (w.getLsbD k).toNat = w.toNat / 2 ^ k % 2 := by
  rw [BitVec.getLsbD, Nat.testBit_eq_decide_div_mod_eq]
  rcases Nat.mod_two_eq_zero_or_one (w.toNat / 2 ^ k) with h | h <;> simp [h]

/-! ### Which words decode to a command: one row of the table each (R95) -/

theorem decode_of_sett_row {w : Word} (h : w.toNat / 2 ^ 24 = 1) :
    decode w = .ok (.sett (w.extractLsb' 16 8) (w.extractLsb' 8 8) (w.extractLsb' 0 8)) := by
  rw [decode_eq, if_pos h]

theorem decode_of_setcfg_row {w : Word} (h : w.toNat / 2 ^ 2 = 2 ^ 23) :
    decode w = .ok (.setcfg (w.getLsbD 0) (w.getLsbD 1)) := by
  have notSett : w.toNat / 2 ^ 24 ≠ 1 := by omega
  rw [decode_eq, if_neg notSett, if_pos h]

theorem decode_of_quant_row {w : Word} (h : w.toNat / 2 ^ 8 = 3 * 2 ^ 16) :
    decode w = .ok (.quant (w.extractLsb' 0 8)) := by
  have notSett : w.toNat / 2 ^ 24 ≠ 1 := by omega
  have notSetcfg : w.toNat / 2 ^ 2 ≠ 2 ^ 23 := by omega
  rw [decode_eq, if_neg notSett, if_neg notSetcfg, if_pos h]

theorem decode_of_pack_row {w : Word} (h : w.toNat / 2 ^ 16 = 4 * 2 ^ 8) :
    decode w = .ok (.pack (w.extractLsb' 0 16)) := by
  have notSett : w.toNat / 2 ^ 24 ≠ 1 := by omega
  have notSetcfg : w.toNat / 2 ^ 2 ≠ 2 ^ 23 := by omega
  have notQuant : w.toNat / 2 ^ 8 ≠ 3 * 2 ^ 16 := by omega
  rw [decode_eq, if_neg notSett, if_neg notSetcfg, if_neg notQuant, if_pos h]

/-- A word that decodes matches one of the four rows, and the command has the row's fields. -/
theorem decode_ok_cases {w : Word} {i : Instr} (h : decode w = .ok i) :
    (w.toNat / 2 ^ 24 = 1 ∧ i = .sett (w.extractLsb' 16 8) (w.extractLsb' 8 8) (w.extractLsb' 0 8)) ∨
      (w.toNat / 2 ^ 2 = 2 ^ 23 ∧ i = .setcfg (w.getLsbD 0) (w.getLsbD 1)) ∨
      (w.toNat / 2 ^ 8 = 3 * 2 ^ 16 ∧ i = .quant (w.extractLsb' 0 8)) ∨
      (w.toNat / 2 ^ 16 = 4 * 2 ^ 8 ∧ i = .pack (w.extractLsb' 0 16)) := by
  rw [decode_eq] at h
  split_ifs at h with hsett hsetcfg hquant hpack
  · exact .inl ⟨hsett, (Except.ok.inj h).symm⟩
  · exact .inr (.inl ⟨hsetcfg, (Except.ok.inj h).symm⟩)
  · exact .inr (.inr (.inl ⟨hquant, (Except.ok.inj h).symm⟩))
  · exact .inr (.inr (.inr ⟨hpack, (Except.ok.inj h).symm⟩))

/-! ### Decoder and encoder are inverse -/

theorem decode_encode (i : Instr) : decode (encode i) = .ok i := by
  cases i with
  | sett a b c =>
    have e := encode_sett_toNat a b c
    have ha := a.isLt
    have hb := b.isLt
    have hc := c.isLt
    rw [decode_of_sett_row (by omega)]
    congr 2 <;> (apply BitVec.eq_of_toNat_eq; rw [toNat_extractLsb'_eq]; omega)
  | setcfg g o => cases g <;> cases o <;> rfl
  | quant x =>
    have e := encode_quant_toNat x
    have hx := x.isLt
    rw [decode_of_quant_row (by omega)]
    congr 2
    apply BitVec.eq_of_toNat_eq
    rw [toNat_extractLsb'_eq]
    omega
  | pack n =>
    have e := encode_pack_toNat n
    have hn := n.isLt
    rw [decode_of_pack_row (by omega)]
    congr 2
    apply BitVec.eq_of_toNat_eq
    rw [toNat_extractLsb'_eq]
    omega

theorem encode_of_decode {w : Word} {i : Instr} (h : decode w = .ok i) : encode i = w := by
  apply BitVec.eq_of_toNat_eq
  rcases decode_ok_cases h with ⟨row, rfl⟩ | ⟨row, rfl⟩ | ⟨row, rfl⟩ | ⟨row, rfl⟩
  · simp only [encode_sett_toNat, toNat_extractLsb'_eq]
    omega
  · simp only [encode_setcfg_toNat, toNat_getLsbD_eq]
    omega
  · simp only [encode_quant_toNat, toNat_extractLsb'_eq]
    omega
  · simp only [encode_pack_toNat, toNat_extractLsb'_eq]
    omega

/-! ### The assembler -/

theorem assemble_eq_ite (c : AsmCommand) (w : Word) (p : Prop) [Decidable p] (hp : c.wellFormed = true ↔ p)
    (hw : p → (c.instr?.map encode).getD c.rawWord = w) : assemble c = if p then some w else none := by
  unfold assemble
  by_cases h : p
  · rw [if_pos (hp.2 h), if_pos h, hw h]
  · rw [if_neg (hp.not.2 h), if_neg h]

/-- The words of R99 as sums: no two fields overlap. -/
theorem sett_fields_eq_sum {a b c : Nat} (ha : a ≤ 255) (hb : b ≤ 255) (hc : c ≤ 255) :
    0x01000000 ||| a <<< 16 ||| b <<< 8 ||| c = 2 ^ 24 + a * 2 ^ 16 + b * 2 ^ 8 + c := by
  calc 0x01000000 ||| a <<< 16 ||| b <<< 8 ||| c
    _ = ((1 <<< 8 ||| a) <<< 8 ||| b) <<< 8 ||| c := by
      simp only [Nat.shiftLeft_or_distrib, ← Nat.shiftLeft_add, Nat.reduceAdd, Nat.reduceShiftLeft]
    _ = ((1 <<< 8 + a) <<< 8 + b) <<< 8 + c := by
      rw [Nat.shiftLeft_add_eq_or_of_lt (b := a) (by omega), Nat.shiftLeft_add_eq_or_of_lt (b := b) (by omega),
        Nat.shiftLeft_add_eq_or_of_lt (b := c) (by omega)]
    _ = 2 ^ 24 + a * 2 ^ 16 + b * 2 ^ 8 + c := by omega

theorem opcode_or_operand {c k x : Nat} (h : x < 2 ^ k) : c <<< k ||| x = c * 2 ^ k + x := by
  rw [← Nat.shiftLeft_add_eq_or_of_lt h, Nat.shiftLeft_eq]

theorem assemble_sett (a b c : Nat) :
    assemble (.sett a b c) = if a ≤ 255 ∧ b ≤ 255 ∧ c ≤ 255 then
      some (BitVec.ofNat 32 (0x01000000 ||| a <<< 16 ||| b <<< 8 ||| c)) else none := by
  apply assemble_eq_ite
  · simp [AsmCommand.wellFormed, and_assoc]
  · rintro ⟨ha, hb, hc⟩
    apply BitVec.eq_of_toNat_eq
    simp only [AsmCommand.instr?, Option.map_some, Option.getD_some, encode_sett_toNat, BitVec.toNat_ofNat,
      sett_fields_eq_sum ha hb hc]
    omega

theorem assemble_setcfg (g o : Nat) :
    assemble (.setcfg g o) =
      if g ≤ 1 ∧ o ≤ 1 then some (BitVec.ofNat 32 (0x02000000 ||| o <<< 1 ||| g)) else none := by
  apply assemble_eq_ite
  · simp [AsmCommand.wellFormed]
  · rintro ⟨hg, ho⟩
    interval_cases g <;> interval_cases o <;> rfl

theorem assemble_quant (x : Nat) :
    assemble (.quant x) = if x ≤ 255 then some (BitVec.ofNat 32 (0x03000000 ||| x)) else none := by
  apply assemble_eq_ite
  · simp [AsmCommand.wellFormed]
  · intro hx
    have fields : 0x03000000 ||| x = 3 * 2 ^ 24 + x := opcode_or_operand (c := 3) (k := 24) (by omega)
    apply BitVec.eq_of_toNat_eq
    simp only [AsmCommand.instr?, Option.map_some, Option.getD_some, encode_quant_toNat, BitVec.toNat_ofNat, fields]
    omega

theorem assemble_pack (n : Nat) :
    assemble (.pack n) = if n ≤ 65535 then some (BitVec.ofNat 32 (0x04000000 ||| n)) else none := by
  apply assemble_eq_ite
  · simp [AsmCommand.wellFormed]
  · intro hn
    have fields : 0x04000000 ||| n = 4 * 2 ^ 24 + n := opcode_or_operand (c := 4) (k := 24) (by omega)
    apply BitVec.eq_of_toNat_eq
    simp only [AsmCommand.instr?, Option.map_some, Option.getD_some, encode_pack_toNat, BitVec.toNat_ofNat, fields]
    omega

theorem assemble_word (w : Nat) :
    assemble (.word w) = if w < 2 ^ 32 then some (BitVec.ofNat 32 w) else none := by
  apply assemble_eq_ite
  · simp [AsmCommand.wellFormed]
  · exact fun _ => rfl

/-! ### The obligations -/

/-- Settles O14: the row of a command matches its word, and each field reads back. -/
theorem decodeEncodeAgree : Obligations.DecodeEncodeAgree := by
  unfold Obligations.DecodeEncodeAgree
  exact decode_encode

/-- Settles O15: in each of the four rows the fields and the match make up the whole word. -/
theorem encodeDecodeAgree : Obligations.EncodeDecodeAgree := by
  unfold Obligations.EncodeDecodeAgree
  exact fun _ _ => encode_of_decode

/-- Settles O16: each row of the decoder is an opcode and a field of reserved bits, all 0. -/
theorem legalWordsAreTheFourFormats : Obligations.LegalWordsAreTheFourFormats := by
  unfold Obligations.LegalWordsAreTheFourFormats
  intro w
  constructor
  · rintro ⟨i, h⟩
    rcases decode_ok_cases h with ⟨row, -⟩ | ⟨row, -⟩ | ⟨row, -⟩ | ⟨row, -⟩ <;> omega
  · rintro (opcode | reserved | reserved | reserved)
    · exact ⟨_, decode_of_sett_row opcode⟩
    · exact ⟨_, decode_of_setcfg_row (by omega)⟩
    · exact ⟨_, decode_of_quant_row (by omega)⟩
    · exact ⟨_, decode_of_pack_row (by omega)⟩

/-- Settles O17: one lemma per source form. -/
theorem assemblerWordsAndRefusals : Obligations.AssemblerWordsAndRefusals := by
  unfold Obligations.AssemblerWordsAndRefusals
  exact ⟨assemble_sett, assemble_setcfg, assemble_quant, assemble_pack, assemble_word⟩

/-- Settles O13: each word evaluates to its decoding. -/
theorem decodesSpecWords : Obligations.DecodesSpecWords := by
  unfold Obligations.DecodesSpecWords
  decide

end Sys2Proof
end

section
/-! The commands' statements that concern QUANT and PACK on their own: the corner cases of QC (R124), the completion of
QUANT (R145), and PACK on every path (R165 to R170). -/

namespace Sys2Proof.Machine

/-! ### QC and QUANT -/

/-- A sample in an interval of R140 has a code. -/
theorem classify_ne_gap_of_interval {x a b c : Byte}
    (h : x.toNat = 0 ∨ (a.toNat < x.toNat ∧ x.toNat ≤ b.toNat) ∨ (b.toNat < x.toNat ∧ x.toNat ≤ c.toNat) ∨
      c.toNat < x.toNat) : classify x a b c ≠ .gap := by
  rw [classify_toNat]
  split_ifs with zero first second third
  case neg => omega
  all_goals simp

/-- The code of the first branch that matches, and 0 for a gap under policy (b) (R140, R142). -/
theorem codeOrZero_classify (x a b c : Byte) :
    (classify x a b c).codeOrZero =
      if x.toNat = 0 then 0
      else if a.toNat < x.toNat ∧ x.toNat ≤ b.toNat then 1
      else if b.toNat < x.toNat ∧ x.toNat ≤ c.toNat then 2
      else if c.toNat < x.toNat then 3
      else 0 := by
  rw [classify_toNat]
  split_ifs <;> rfl

/-- QUANT of a sample that has a code, or under policy (b). -/
theorem execQuant_done {s : State} {x : Byte} (loaded : s.tvalid = true)
    (coded : s.gap = true ∨ classify x s.t1 s.t2 s.t3 ≠ .gap) :
    execQuant x s = .next (s.setQcode (classify x s.t1 s.t2 s.t3).codeOrZero).finish := by
  apply execQuant_of_ok loaded
  rw [codeOf_eq, if_neg]
  rintro ⟨isGap, policyA⟩
  rcases coded with policyB | notGap
  · simp [policyA] at policyB
  · exact notGap isGap

/-- Settles O59: the sample has a code or the policy is (b), so QUANT takes its last path. -/
theorem quantCompletes : Obligations.QuantCompletes := by
  unfold Obligations.QuantCompletes
  intro s x loaded coded
  rw [← codeOrZero_classify]
  exact execQuant_done loaded (coded.imp_right classify_ne_gap_of_interval)

/-- Settles O20: two equal thresholds leave an interval empty, every sample but 0 is above all-zero thresholds, and
none is above 255. -/
theorem classifyDegenerateThresholds : Obligations.ClassifyDegenerateThresholds := by
  unfold Obligations.ClassifyDegenerateThresholds
  refine ⟨fun x a c => ?_, fun x a b => ?_, fun x hx => ?_, fun x hx => ?_⟩
  · have empty : ¬ (a.toNat < x.toNat ∧ x.toNat ≤ a.toNat) := by omega
    rw [classify_toNat]
    simp only [empty, if_false]
    split_ifs <;> simp
  · have empty : ¬ (b.toNat < x.toNat ∧ x.toNat ≤ b.toNat) := by omega
    rw [classify_toNat]
    simp only [empty, if_false]
    split_ifs <;> simp
  · have nonzero : x.toNat ≠ 0 := fun h => hx (BitVec.eq_of_toNat_eq h)
    have zero : (0 : Byte).toNat = 0 := rfl
    exact classify_of_third nonzero (by omega) (by omega) (by omega)
  · have nonzero : x.toNat ≠ 0 := fun h => hx (BitVec.eq_of_toNat_eq h)
    have bound : x.toNat ≤ (255 : Byte).toNat := Nat.le_of_lt_succ x.isLt
    exact classify_of_none nonzero (by omega) (by omega) (by omega)

/-! ### The samples PACK reads -/

@[simp] theorem packSamples_length (s : State) (n : Nat) : (packSamples s n).length = n := readRun_length _ _ _ _

/-- PACK draws once for each byte nobody has written (R40). -/
theorem packDraws_eq (s : State) (n : Nat) : packDraws s n = s.draws + unwrittenBytes s.ibuf 0 n :=
  readRun_draws _ _ _ _

theorem packSamples_written {s : State} {n i : Nat} {b : Byte} (hi : i < n) (h : Memory.get s.ibuf i = some b) :
    (packSamples s n)[i]? = some b :=
  readRun_getElem?_written hi (by rwa [Nat.zero_add])

theorem packSamples_unwritten {s : State} {n i : Nat} (hi : i < n) (h : Memory.get s.ibuf i = none) :
    (packSamples s n)[i]? = some (Config.freeByte (s.draws + unwrittenBytes s.ibuf 0 i)) :=
  readRun_getElem?_unwritten hi (by rwa [Nat.zero_add])

/-- No two unwritten bytes take the same draw: the later one counts the earlier one. -/
theorem unwrittenBytes_ne {m : Memory} {i k : Nat} (hi : Memory.get m i = none) (hk : Memory.get m k = none)
    (hne : k ≠ i) : unwrittenBytes m 0 k ≠ unwrittenBytes m 0 i := by
  rcases Nat.lt_or_gt_of_ne hne with h | h
  · exact Nat.ne_of_lt (unwrittenBytes_lt h (by rwa [Nat.zero_add]))
  · exact Nat.ne_of_gt (unwrittenBytes_lt h (by rwa [Nat.zero_add]))

/-- A line the host has loaded is read as it is, and draws nothing (R233). -/
theorem packSamples_of_lineLoaded {s : State} {xs : List Byte} (h : s.LineLoaded xs) :
    packSamples s xs.length = xs ∧ packDraws s xs.length = s.draws := by
  have run : readRun s.ibuf 0 xs.length s.draws = (xs, s.draws) :=
    readRun_written fun k hk => by rw [Nat.zero_add]; exact h k hk
  exact ⟨congrArg Prod.fst run, congrArg Prod.snd run⟩

/-- Settles O26: byte i is drawn after the unwritten bytes below it, and has their number. -/
theorem packSamplesAreIbufOrDraws : Obligations.PackSamplesAreIbufOrDraws := by
  unfold Obligations.PackSamplesAreIbufOrDraws
  intro s n
  refine ⟨packSamples_length s n, packDraws_eq s n, fun i b => packSamples_written,
    fun i => s.draws + unwrittenBytes s.ibuf 0 i, fun i hi unwritten => ⟨Nat.le_add_right _ _, ?_,
      packSamples_unwritten hi unwritten, fun k _ hk hne => ?_⟩⟩
  · rw [packDraws_eq]
    exact Nat.add_lt_add_left (unwrittenBytes_lt hi (by rwa [Nat.zero_add])) _
  · exact fun h => unwrittenBytes_ne unwritten hk hne (Nat.add_left_cancel h)

/-! ### The paths of PACK -/

theorem execPack_of_noThresholds {s : State} (unset : s.tvalid = false) (n : Len) :
    execPack n s = .next (s.raiseError .noThresholds) := if_pos unset

theorem execPack_of_long {s : State} {n : Len} (loaded : s.tvalid = true) (long : s.wMax.toNat < n.toNat) :
    execPack n s = .next (s.raiseError .lengthError) := by
  have set : ¬ s.tvalid = false := by simp [loaded]
  rw [execPack_eq, if_neg set, if_pos (BitVec.lt_def.2 long)]

/-- A PACK whose first gap under policy (a) is at index j. -/
theorem execPack_of_gap {s : State} {n : Len} {j : Nat} {x : Byte} (loaded : s.tvalid = true)
    (fits : n.toNat ≤ s.wMax.toNat) (policyA : s.gap = false) (hx : (packSamples s n.toNat)[j]? = some x)
    (isGap : classify x s.t1 s.t2 s.t3 = .gap)
    (lowest : ∀ k y, k < j → (packSamples s n.toNat)[k]? = some y → classify y s.t1 s.t2 s.t3 ≠ .gap) :
    execPack n s = .next (packFailed s n (.invalidSample (BitVec.ofNat 16 j))) := by
  have set : ¬ s.tvalid = false := by simp [loaded]
  have short : ¬ s.wMax < n := by rw [BitVec.lt_def]; omega
  rw [execPack_eq, if_neg set, if_neg short, codesFrom_error _ 0 j policyA hx isGap lowest, Nat.zero_add]

/-- A PACK that reports no error has packed its line. -/
theorem execPack_success {s t : State} {n : Len} (h : execPack n s = .next t) (ok : t.errcode = .none) :
    t = packDone s n := by
  rcases execPack_cases h with ⟨-, rfl⟩ | ⟨-, -, rfl⟩ | ⟨-, -, -, j, -, rfl, -⟩ | ⟨-, -, -, ht⟩
  · cases ok
  · cases ok
  · cases ok
  · exact ht

/-- Settles O27: the path of PACK that ends in `finish`. -/
theorem packCompletes : Obligations.PackCompletes := by
  unfold Obligations.PackCompletes
  intro s n loaded fits coded
  exact ⟨(packDone s n).obuf, execPack_done loaded fits coded, packDone_obuf s n⟩

/-- Settles O28: the samples PACK reads are those of the loaded line. -/
theorem packCompletesOnLoadedLine : Obligations.PackCompletesOnLoadedLine := by
  unfold Obligations.PackCompletesOnLoadedLine
  intro s n xs loaded fits hlen line coded
  obtain ⟨samples, draws⟩ := packSamples_of_lineLoaded line
  rw [hlen] at samples draws
  have done := execPack_done loaded fits (samples ▸ coded)
  have bytes := packDone_obuf s n
  rw [samples] at bytes
  refine ⟨(packDone s n).obuf, ?_, bytes⟩
  rw [exec, done, packDone, draws]
  rfl

/-- Settles O29: both refusals come before any byte is read. -/
theorem packRefusesBeforeReading : Obligations.PackRefusesBeforeReading := by
  unfold Obligations.PackRefusesBeforeReading
  exact fun s n => ⟨fun unset => execPack_of_noThresholds unset n, execPack_of_long⟩

/-- Settles O30: the first gap of the line is the sample that raises. -/
theorem packRaisesInvalidSample : Obligations.PackRaisesInvalidSample := by
  unfold Obligations.PackRaisesInvalidSample
  intro s n j x loaded fits policyA hx isGap lowest
  exact ⟨_, execPack_of_gap loaded fits policyA hx isGap lowest,
    packFailed_obuf s n (.invalidSample (BitVec.ofNat 16 j))⟩

/-- Settles O31: the four paths of PACK exclude each other, and each has an ERRCODE of its own. -/
theorem packReportsFirstCondition : Obligations.PackReportsFirstCondition := by
  unfold Obligations.PackReportsFirstCondition
  intro s t n h
  rcases execPack_cases h with ⟨unset, rfl⟩ | ⟨loaded, long, rfl⟩ |
    ⟨loaded, fits, policyA, j, -, rfl, ⟨x, hx, isGap⟩, -⟩ | ⟨loaded, fits, coded, rfl⟩
  · simp [Condition.code, unset]
  · simp [Condition.code, loaded, long]
  · have raising : ∃ x ∈ packSamples s n.toNat, classify x s.t1 s.t2 s.t3 = .gap :=
      ⟨x, List.mem_of_getElem? hx, isGap⟩
    simp [packFailed, Condition.code, loaded, fits, policyA, raising]
  · have noneRaises : ¬ (s.gap = false ∧ ∃ x ∈ packSamples s n.toNat, classify x s.t1 s.t2 s.t3 = .gap) := by
      rintro ⟨policyA, x, hx, isGap⟩
      rcases coded with policyB | noGap
      · simp [policyA] at policyB
      · exact noGap x hx isGap
    simp [packDone, loaded, fits, noneRaises]

/-- Settles O32: a line of no samples has no gap and no byte. -/
theorem packOfNothing : Obligations.PackOfNothing := by
  unfold Obligations.PackOfNothing
  refine fun s => ⟨fun loaded => ?_, fun unset => execPack_of_noThresholds unset 0⟩
  have noSample : ∀ x ∈ packSamples s (0 : Len).toNat, classify x s.t1 s.t2 s.t3 ≠ .gap := fun x hx => by cases hx
  exact execPack_done loaded (Nat.zero_le _) (.inr noSample)

/-! ### Groups of the packed line -/

/-- The code of a position rests on its sample and the thresholds alone. -/
theorem lineCode_congr {s s' : State} {xs ys : List Byte} {i : Nat} (h1 : s.t1 = s'.t1) (h2 : s.t2 = s'.t2)
    (h3 : s.t3 = s'.t3) (h : xs[i]? = ys[i]?) : lineCode s xs i = lineCode s' ys i := by
  unfold lineCode
  rw [h, h1, h2, h3]

/-- An absent position has code 0 (R163). -/
theorem lineCode_absent (s : State) {xs : List Byte} {i : Nat} (h : xs.length ≤ i) : lineCode s xs i = 0 := by
  unfold lineCode
  rw [List.getElem?_eq_none h]

/-- Two PACKs of one length read the same at an index that both states hold, or that is beyond the line. -/
theorem packSamples_congr {s s' : State} {n i : Nat}
    (h : i < n → Memory.get s.ibuf i ≠ none ∧ Memory.get s.ibuf i = Memory.get s'.ibuf i) :
    (packSamples s n)[i]? = (packSamples s' n)[i]? := by
  by_cases hi : i < n
  · obtain ⟨written, same⟩ := h hi
    obtain ⟨b, hb⟩ := Option.ne_none_iff_exists'.1 written
    rw [packSamples_written hi hb, packSamples_written hi (same ▸ hb)]
  · rw [List.getElem?_eq_none (by simpa using hi), List.getElem?_eq_none (by simpa using hi)]

/-- Settles O33: a packed byte is made of the codes at its four positions. -/
theorem packGroupLocality : Obligations.PackGroupLocality := by
  unfold Obligations.PackGroupLocality
  intro s s' t t' n k h h' ok ok' h1 h2 h3 _ hk samples
  obtain rfl := execPack_success h ok
  obtain rfl := execPack_success h' ok'
  have sameCode : ∀ i, 4 * k ≤ i → i < 4 * k + 4 →
      lineCode s (packSamples s n.toNat) i = lineCode s' (packSamples s' n.toNat) i := fun i low high =>
    lineCode_congr h1 h2 h3 (packSamples_congr (samples i low high))
  have stored : k < outLen n.toNat := hk
  refine ⟨?_, rfl⟩
  rw [packDone_obuf, packDone_obuf, if_pos stored, if_pos stored, sameCode (4 * k) (by omega) (by omega),
    sameCode (4 * k + 1) (by omega) (by omega), sameCode (4 * k + 2) (by omega) (by omega),
    sameCode (4 * k + 3) (by omega) (by omega)]

/-- Settles O34: the absent positions are the low base-4 digits of the last byte, and have code 0. -/
theorem packZeroFillsLastGroup : Obligations.PackZeroFillsLastGroup := by
  unfold Obligations.PackZeroFillsLastGroup
  intro s t n h ok hr
  obtain rfl := execPack_success h ok
  obtain ⟨q, hq⟩ : ∃ q, (n.toNat + 3) / 4 - 1 = q := ⟨_, rfl⟩
  have last : q < outLen n.toNat := by rw [outLen]; omega
  have absent : ∀ j, n.toNat % 4 ≤ j → lineCode s (packSamples s n.toNat) (4 * q + j) = 0 := fun j hj =>
    lineCode_absent s (by rw [packSamples_length]; omega)
  have zero : (0 : Code).toNat = 0 := rfl
  refine ⟨_, by rw [hq, packDone_obuf, if_pos last], ?_⟩
  rw [pack4_toNat]
  obtain r | r | r : n.toNat % 4 = 1 ∨ n.toNat % 4 = 2 ∨ n.toNat % 4 = 3 := by omega
  · rw [absent 1 (by omega), absent 2 (by omega), absent 3 (by omega), r]
    omega
  · rw [absent 2 (by omega), absent 3 (by omega), r]
    omega
  · rw [absent 3 (by omega), r]
    omega

end Sys2Proof.Machine
end

section
/-! How a command ends, path by path, and what each command leaves unchanged (10_state.md R42; 60_exceptions.md R202,
R204). -/

namespace Sys2Proof.Machine

/-- The paths of the commands: `CommandEnds s i t` says that `i` executed in `s` can end in `t`, and on which path. -/
inductive CommandEnds (s : State) : Instr → State → Prop
  | settRefused {a b c : Byte} : CommandEnds s (.sett a b c) (s.raiseError .orderError)
  | sett {a b c : Byte} : CommandEnds s (.sett a b c) (s.loadThresholds a b c).finish
  | setcfg {g o : Bool} : CommandEnds s (.setcfg g o) (s.loadConfig g o).finish
  | quantUnset {x : Byte} : CommandEnds s (.quant x) (s.raiseError .noThresholds)
  | quantGap {x : Byte} (policyA : s.gap = false) : CommandEnds s (.quant x) (s.raiseError (.invalidSample 0))
  | quant {x : Byte} {c : Code} : CommandEnds s (.quant x) (s.setQcode c).finish
  | packUnset {n : Len} : CommandEnds s (.pack n) (s.raiseError .noThresholds)
  | packLong {n : Len} (long : s.wMax.toNat < n.toNat) : CommandEnds s (.pack n) (s.raiseError .lengthError)
  | packGap {n : Len} {j : Nat} (loaded : s.tvalid = true) (fits : n.toNat ≤ s.wMax.toNat) (policyA : s.gap = false)
      (inLine : j < n.toNat) : CommandEnds s (.pack n) (packFailed s n (.invalidSample (BitVec.ofNat 16 j)))
  | pack {n : Len} (loaded : s.tvalid = true) (fits : n.toNat ≤ s.wMax.toNat) : CommandEnds s (.pack n) (packDone s n)

/-- Every execution takes one of the paths. -/
theorem exec_ends {i : Instr} {s t : State} (h : exec i s = .next t) : CommandEnds s i t := by
  cases i with
  | sett a b c =>
    rcases execSett_cases h with ⟨-, -, rfl⟩ | ⟨-, rfl⟩
    · exact .settRefused
    · exact .sett
  | setcfg g o =>
    obtain rfl : (s.loadConfig g o).finish = t := Host.Outcome.next.inj h
    exact .setcfg
  | quant x =>
    rcases execQuant_cases h with ⟨-, rfl⟩ | ⟨-, -, policyA, rfl⟩ | ⟨-, -, rfl⟩
    · exact .quantUnset
    · exact .quantGap policyA
    · exact .quant
  | pack n =>
    rcases execPack_cases h with ⟨-, rfl⟩ | ⟨-, long, rfl⟩ | ⟨loaded, fits, policyA, j, hj, rfl, -⟩ |
      ⟨loaded, fits, -, rfl⟩
    · exact .packUnset
    · exact .packLong long
    · exact .packGap loaded fits policyA hj
    · exact .pack loaded fits

/-! ### What no command writes -/

/-- What no command writes: W_MAX, HAZ, PEND, IBUF, and the model's own fields but the draw counter. -/
structure KeepsHostSide (s t : State) : Prop where
  wMax : t.wMax = s.wMax
  haz : t.haz = s.haz
  pend : t.pend = s.pend
  ibuf : t.ibuf = s.ibuf
  hostOps : t.hostOps = s.hostOps
  turns : t.turns = s.turns
  reads : t.reads = s.reads

theorem exec_keepsHostSide {i : Instr} {s t : State} (h : exec i s = .next t) : KeepsHostSide s t := by
  cases exec_ends h <;> exact ⟨rfl, rfl, rfl, rfl, rfl, rfl, rfl⟩

/-! ### Who writes a register, command by command -/

section Writers
variable {i : Instr} {s t : State} (h : exec i s = .next t)
include h

/-- Only a SETT that succeeds writes THR and TVALID, all together (R122). -/
theorem exec_thresholds :
    (t.t1 = s.t1 ∧ t.t2 = s.t2 ∧ t.t3 = s.t3 ∧ t.tvalid = s.tvalid) ∨
      ∃ a b c, i = .sett a b c ∧ t.t1 = a ∧ t.t2 = b ∧ t.t3 = c ∧ t.tvalid = true ∧ t.errcode = .none := by
  cases exec_ends h with
  | @sett a b c => exact .inr ⟨a, b, c, rfl, rfl, rfl, rfl, rfl, rfl⟩
  | _ => exact .inl ⟨rfl, rfl, rfl, rfl⟩

/-- Only SETCFG writes CFG (R125). -/
theorem exec_config :
    (t.gap = s.gap ∧ t.ordchk = s.ordchk) ∨ ∃ g o, i = .setcfg g o ∧ t.gap = g ∧ t.ordchk = o := by
  cases exec_ends h with
  | @setcfg g o => exact .inr ⟨g, o, rfl, rfl, rfl⟩
  | _ => exact .inl ⟨rfl, rfl⟩

/-- Only a QUANT that succeeds writes QCODE (R145). -/
theorem exec_qcode : t.qcode = s.qcode ∨ ∃ x, i = .quant x ∧ t.errcode = .none := by
  cases exec_ends h with
  | @quant x c => exact .inr ⟨x, rfl, rfl⟩
  | _ => exact .inl rfl

/-- Only a PACK that succeeds writes OLEN (R165). -/
theorem exec_olen : t.olen = s.olen ∨ ∃ n, i = .pack n ∧ t.errcode = .none := by
  cases exec_ends h with
  | @pack n => exact .inr ⟨n, rfl, rfl⟩
  | _ => exact .inl rfl

/-- Only InvalidSample writes ERRIDX, and only QUANT and PACK under policy (a) raise it (R142, R203). -/
theorem exec_erridx :
    (t.erridx = s.erridx ∧ t.errcode ≠ .invalidSample) ∨
      (t.errcode = .invalidSample ∧ s.gap = false ∧ ((∃ x, i = .quant x) ∨ ∃ n, i = .pack n)) := by
  cases exec_ends h with
  | @quantGap x policyA => exact .inr ⟨rfl, policyA, .inl ⟨x, rfl⟩⟩
  | @packGap n j _ _ policyA => exact .inr ⟨rfl, policyA, .inr ⟨n, rfl⟩⟩
  | _ => exact .inl ⟨rfl, nofun⟩

/-- Only a PACK that succeeds or raises InvalidSample writes OBUF, below ceil(n/4) (R165, R167). -/
theorem exec_obuf :
    t.obuf = s.obuf ∨ ∃ n, i = .pack n ∧ s.tvalid = true ∧ n.toNat ≤ s.wMax.toNat ∧
      (∀ k, outLen n.toNat ≤ k → Memory.get t.obuf k = Memory.get s.obuf k) ∧
      (t.errcode = .none ∨ t.errcode = .invalidSample) := by
  cases exec_ends h with
  | @pack n loaded fits =>
    exact .inr ⟨n, rfl, loaded, fits, fun k hk => by rw [packDone_obuf, if_neg (by omega)], .inl rfl⟩
  | @packGap n j loaded fits _ _ =>
    exact .inr ⟨n, rfl, loaded, fits, fun k hk => by rw [packFailed_obuf, if_neg (by omega)], .inr rfl⟩
  | _ => exact .inl rfl

end Writers

/-! ### The obligations -/

/-- Settles O35: only policy (a) raises InvalidSample, and only InvalidSample writes ERRIDX. -/
theorem policyBNeverRaisesInvalidSample : Obligations.PolicyBNeverRaisesInvalidSample := by
  unfold Obligations.PolicyBNeverRaisesInvalidSample
  intro s t i policyB h
  rcases exec_erridx h with ⟨same, notInvalid⟩ | ⟨-, policyA, -⟩
  · exact ⟨notInvalid, same⟩
  · simp [policyB] at policyA

/-- Settles O36: each path ends in `finish`, with ERRCODE 0 and AERR kept, or in `raise`, with AERR set. -/
theorem completionReport : Obligations.CompletionReport := by
  unfold Obligations.CompletionReport
  intro s t i h
  have kept := exec_keepsHostSide h
  obtain ⟨u, -, aerr, rfl | ⟨c, rfl⟩⟩ := exec_completes h
  · exact ⟨rfl, fun error => absurd rfl error, fun _ => aerr, kept.haz, kept.pend⟩
  · refine ⟨rfl, fun _ => rfl, fun ok => ?_, kept.haz, kept.pend⟩
    cases c <;> cases ok

/-- Settles O37: no command but PACK writes a buffer or OLEN, and each register has one writer. -/
theorem registerCommandFrame : Obligations.RegisterCommandFrame := by
  unfold Obligations.RegisterCommandFrame
  intro s t i notPack h
  have kept := exec_keepsHostSide h
  have obuf : t.obuf = s.obuf := (exec_obuf h).resolve_right fun ⟨n, e, _⟩ => notPack n e
  have olen : t.olen = s.olen := (exec_olen h).resolve_right fun ⟨n, e, _⟩ => notPack n e
  have draws : t.draws = s.draws := by
    cases exec_ends h with
    | @packGap n => exact absurd rfl (notPack n)
    | @pack n => exact absurd rfl (notPack n)
    | _ => rfl
  refine ⟨fun a => by rw [kept.ibuf], fun a => by rw [obuf], kept.wMax, kept.haz, olen, kept.pend, draws, kept.hostOps,
    kept.turns, kept.reads, fun notSett => ?_, fun notSetcfg => ?_, fun notQuant => ⟨?_, ?_⟩⟩
  · exact (exec_thresholds h).resolve_right fun ⟨a, b, c, e, _⟩ => notSett a b c e
  · exact (exec_config h).resolve_right fun ⟨g, o, e, _⟩ => notSetcfg g o e
  · exact (exec_qcode h).resolve_right fun ⟨x, e, _⟩ => notQuant x e
  · rcases exec_erridx h with ⟨same, -⟩ | ⟨-, -, ⟨x, e⟩ | ⟨n, e⟩⟩
    · exact same
    · exact absurd e (notQuant x)
    · exact absurd e (notPack n)

/-- Settles O38: PACK writes OBUF below ceil(n/4), OLEN when it succeeds and ERRIDX with InvalidSample, and no other
register has PACK for a writer. -/
theorem packFrame : Obligations.PackFrame := by
  unfold Obligations.PackFrame
  intro s t n h
  have kept := exec_keepsHostSide h
  obtain ⟨t1, t2, t3, tvalid⟩ := (exec_thresholds h).resolve_right nofun
  obtain ⟨gap, ordchk⟩ := (exec_config h).resolve_right nofun
  have qcode : t.qcode = s.qcode := (exec_qcode h).resolve_right nofun
  refine ⟨fun a => by rw [kept.ibuf], fun a ha => ?_, fun refused a => ?_, fun error => ?_, fun notInvalid => ?_,
    kept.wMax, kept.haz, tvalid, gap, ordchk, t1, t2, t3, qcode, kept.pend, kept.hostOps, kept.turns, kept.reads⟩
  · rcases exec_obuf h with same | ⟨m, e, -, -, above, -⟩
    · rw [same]
    · cases e
      exact above a ha
  · rcases exec_obuf h with same | ⟨m, e, loaded, fits, -⟩
    · rw [same]
    · cases e
      rcases refused with unset | long
      · simp [loaded] at unset
      · omega
  · exact (exec_olen h).resolve_right fun ⟨_, _, ok⟩ => error ok
  · exact ((exec_erridx h).resolve_right fun ⟨invalid, _⟩ => notInvalid invalid).1

end Sys2Proof.Machine
end

section
/-! One step, by the agent that moves (70_reset_and_hazards.md R239, R240), and who writes which part of the state over
every step: the invariant of the buffers and registers, and the writers of 10_state.md R42. -/

namespace Sys2Proof.Machine

/-! ### Which agent moves -/

theorem mover_eq_engine {s : State} (busy : s.busy = true) (turn : s.hostOps = [] ∨ s.turns.head? ≠ some .host) :
    mover s = some .engine := by
  unfold mover
  rw [busy]
  cases hops : s.hostOps with
  | nil => rfl
  | cons op rest =>
    have notHost : s.turns.head? ≠ some .host := turn.resolve_left (by simp [hops])
    unfold preferred
    cases hturns : s.turns with
    | nil => rfl
    | cons a as =>
      cases a with
      | engine => rfl
      | host => simp [hturns] at notHost

theorem mover_eq_host {s : State} {op : HostOp} {rest : List HostOp} (ops : s.hostOps = op :: rest)
    (turn : s.busy = false ∨ s.turns.head? = some .host) : mover s = some .host := by
  unfold mover
  rw [ops]
  cases busy : s.busy with
  | false => rfl
  | true =>
    have host : s.turns.head? = some .host := turn.resolve_left (by simp [busy])
    simp [preferred, List.headD_eq_head?_getD, host]

theorem mover_eq_none {s : State} (idle : s.busy = false) (noOp : s.hostOps = []) : mover s = none := by
  unfold mover
  rw [idle, noOp]

theorem step_of_engine {s : State} (h : mover s = some .engine) : step s = engineStep s.endTurn := by
  unfold step runTurn
  rw [h]

theorem step_of_none {s : State} (h : mover s = none) : step s = .next s.endTurn := by
  unfold step runTurn
  rw [h]

theorem step_of_host {s : State} {op : HostOp} {rest : List HostOp} (h : mover s = some .host)
    (ops : s.hostOps = op :: rest) : step s = .next (runHostOp op (s.endTurn.setHostOps rest)) := by
  unfold step runTurn
  rw [h]
  simp only [hostTurn, State.endTurn_hostOps, ops]

theorem engineStep_of_decode {s : State} {i : Instr} (h : decode s.pend = .ok i) : engineStep s = exec i s := by
  unfold engineStep
  rw [h]

theorem engineStep_of_illegal {s : State} {e : Illegal} (h : decode s.pend = .error e) :
    engineStep s = .next (s.raiseError .illegalCommand) := by
  unfold engineStep
  rw [h]

/-! ### The obligations on one step -/

/-- Settles O6: each agent's move is a next state, and so is the idle step. -/
theorem everyStepAnswersNext : Obligations.EveryStepAnswersNext := by
  unfold Obligations.EveryStepAnswersNext
  intro s
  cases hm : mover s with
  | none => exact ⟨_, step_of_none hm⟩
  | some agent =>
    cases agent with
    | host =>
      obtain ⟨op, rest, ops⟩ := mover_host hm
      exact ⟨_, step_of_host hm ops⟩
    | engine =>
      obtain ⟨t, ht, -⟩ := engineStep_next s.endTurn
      exact ⟨t, (step_of_engine hm).trans ht⟩

/-- Settles O7: the engine moves, and decodes PEND as it stood. -/
theorem stepRunsDecodedCommand : Obligations.StepRunsDecodedCommand := by
  unfold Obligations.StepRunsDecodedCommand
  intro s i busy turn hd
  rw [step_of_engine (mover_eq_engine busy turn), engineStep_of_decode (s := s.endTurn) hd, State.endTurn]

/-- Settles O8: the host moves, and issues the head of its program. -/
theorem stepRunsHostTransaction : Obligations.StepRunsHostTransaction := by
  unfold Obligations.StepRunsHostTransaction
  intro s op rest ops turn
  exact step_of_host (mover_eq_host ops turn) ops

/-- Settles O9: the engine moves, and raises IllegalCommand. -/
theorem stepRaisesIllegalCommand : Obligations.StepRaisesIllegalCommand := by
  unfold Obligations.StepRaisesIllegalCommand
  intro s e busy turn hd
  exact (step_of_engine (mover_eq_engine busy turn)).trans (engineStep_of_illegal (s := s.endTurn) hd)

/-- Settles O10: neither agent moves. -/
theorem idleStepKeepsState : Obligations.IdleStepKeepsState := by
  unfold Obligations.IdleStepKeepsState
  exact fun s idle noOp => step_of_none (mover_eq_none idle noOp)

/-- Settles O12: the placed word is in PEND and the engine has the next turn. -/
theorem placedWordRunsNext : Obligations.PlacedWordRunsNext := by
  unfold Obligations.PlacedWordRunsNext
  intro s nbits w i h
  have hd : decode (tableWord nbits w) = .ok i := by
    unfold decodeTableWord at h
    cases hw : decode (tableWord nbits w) with
    | error e => simp [hw, Except.toOption] at h
    | ok j => simpa [hw, Except.toOption] using h
  have engine : mover (s.withFetchWord nbits w) = some .engine := mover_eq_engine rfl (.inr nofun)
  exact (step_of_engine engine).trans (engineStep_of_decode (s := (s.withFetchWord nbits w).endTurn) hd)

/-! ### PEND while BUSY is 0 (R37) -/

theorem readWindow_withPend (m : Memory) (size b : Nat) (s : State) (v : Word) :
    readWindow m size b { s with pend := v } =
      ((readWindow m size b s).1, { (readWindow m size b s).2 with pend := v }) := by
  unfold readWindow
  by_cases busy : s.busy = true
  · rw [if_pos busy, if_pos busy]
    rfl
  · rw [if_neg busy, if_neg busy]
    rfl

theorem hostRead_withPend (a : PortAddr) (s : State) (v : Word) :
    hostRead a { s with pend := v } = ((hostRead a s).1, { (hostRead a s).2 with pend := v }) := by
  unfold hostRead
  cases regionOf a with
  | ibuf b => exact readWindow_withPend _ _ _ _ _
  | obuf b => exact readWindow_withPend _ _ _ _ _
  | _ => rfl

/-- `f` on a state with another PEND answers the same state but for PEND, which it keeps in both or writes alike. -/
def IgnoresPend (f : State → State) : Prop :=
  ∀ (s : State) (v : Word), ∃ p, f { s with pend := v } = { f s with pend := p } ∧
    (p = (f s).pend ∨ p = v ∧ (f s).pend = s.pend)

theorem hostReadLogged_ignoresPend (a : PortAddr) : IgnoresPend (hostReadLogged a) := by
  intro s v
  have kept : (hostReadLogged a s).pend = s.pend := by
    rw [hostReadLogged, State.logRead_pend]
    rcases hostRead_cases a s with h | ⟨-, h⟩ | ⟨-, d, h⟩ <;> rw [h]
    · exact s.setHaz_pend
    · exact s.setDraws_pend d
  refine ⟨v, ?_, .inr ⟨rfl, kept⟩⟩
  unfold hostReadLogged
  rw [hostRead_withPend]
  rfl

theorem IgnoresPend.ite {c : State → Prop} [DecidablePred c] {f g : State → State}
    (hc : ∀ s v, c { s with pend := v } ↔ c s) (hf : IgnoresPend f) (hg : IgnoresPend g) :
    IgnoresPend fun s => if c s then f s else g s := by
  intro s v
  simp only [hc]
  split
  · exact hf s v
  · exact hg s v

theorem ignoresPend_id : IgnoresPend fun s => s := fun _ v => ⟨v, rfl, .inr ⟨rfl, rfl⟩⟩

theorem ignoresPend_setHaz : IgnoresPend State.setHaz := fun _ v => ⟨v, rfl, .inr ⟨rfl, rfl⟩⟩

theorem hostWrite_ignoresPend (a : PortAddr) (d : Word) (strb : Strobe) : IgnoresPend (hostWrite a d strb) := by
  apply IgnoresPend.ite (fun _ _ => Iff.rfl) ignoresPend_id
  cases regionOf a with
  | cmd =>
    apply IgnoresPend.ite (fun _ _ => Iff.rfl) ignoresPend_setHaz
    exact IgnoresPend.ite (fun _ _ => Iff.rfl) (fun _ _ => ⟨d, rfl, .inl rfl⟩) ignoresPend_id
  | status => exact IgnoresPend.ite (fun _ _ => Iff.rfl) (fun _ v => ⟨v, rfl, .inr ⟨rfl, rfl⟩⟩) ignoresPend_id
  | ibuf b =>
    exact IgnoresPend.ite (fun _ _ => Iff.rfl) ignoresPend_setHaz fun _ v => ⟨v, rfl, .inr ⟨rfl, rfl⟩⟩
  | obuf b => exact IgnoresPend.ite (fun _ _ => Iff.rfl) ignoresPend_setHaz ignoresPend_id
  | _ => exact ignoresPend_id

theorem waitPoll_ignoresPend : IgnoresPend waitPoll := by
  have branches : waitPoll = fun s => if s.busy = true then
      (s.logRead statusAddr s.statusWord).setHostOps (.wait :: s.hostOps) else s.logRead statusAddr s.statusWord :=
    funext waitPoll_eq
  rw [branches]
  exact IgnoresPend.ite (fun _ _ => Iff.rfl) (fun _ v => ⟨v, rfl, .inr ⟨rfl, rfl⟩⟩)
    fun _ v => ⟨v, rfl, .inr ⟨rfl, rfl⟩⟩

theorem runHostOp_ignoresPend (op : HostOp) : IgnoresPend (runHostOp op) := by
  cases op with
  | read a => exact hostReadLogged_ignoresPend a
  | write a d strb => exact hostWrite_ignoresPend a d strb
  | wait => exact waitPoll_ignoresPend
  | reset => exact fun s v => ⟨0, rfl, .inl rfl⟩

/-- Settles O11: with BUSY = 0 the engine does not move, and no host transaction reads PEND. -/
theorem pendNeverReadWhileIdle : Obligations.PendNeverReadWhileIdle := by
  unfold Obligations.PendNeverReadWhileIdle
  intro s t v idle h
  have sameMover : mover { s with pend := v } = mover s := rfl
  rcases step_cases h with ⟨hm, rfl⟩ | ⟨op, rest, ⟨hm, -⟩, ops, rfl⟩ | ⟨i, ⟨hm, -⟩, -⟩ | ⟨e, hm, -⟩
  · exact ⟨_, step_of_none (sameMover.trans hm), rfl, .inr ⟨rfl, rfl⟩⟩
  · obtain ⟨p, e, hp⟩ := runHostOp_ignoresPend op (s.endTurn.setHostOps rest) v
    refine ⟨_, (step_of_host (sameMover.trans hm) ops).trans (congrArg _ e), rfl, hp⟩
  · exact absurd (mover_engine hm) (by simp [idle])
  · exact absurd (mover_engine hm) (by simp [idle])

/-! ### What a step keeps when no command and no reset runs -/

/-- `t` has the configuration, the thresholds, the results and OBUF of `s`; IBUF is as in `s`, or as a host write to its
window leaves it (R68). -/
structure KeepsResults (s t : State) : Prop where
  wMax : t.wMax = s.wMax
  tvalid : t.tvalid = s.tvalid
  gap : t.gap = s.gap
  ordchk : t.ordchk = s.ordchk
  t1 : t.t1 = s.t1
  t2 : t.t2 = s.t2
  t3 : t.t3 = s.t3
  qcode : t.qcode = s.qcode
  olen : t.olen = s.olen
  erridx : t.erridx = s.erridx
  obuf : t.obuf = s.obuf
  ibuf : t.ibuf = s.ibuf ∨ ∃ b d strb, t.ibuf = writeWindow s.wMax.toNat b d strb s.ibuf

theorem runHostOp_keepsResults {op : HostOp} (notReset : op ≠ .reset) (s : State) :
    KeepsResults s (runHostOp op s) := by
  cases op with
  | reset => exact absurd rfl notReset
  | wait =>
    simp only [runHostOp, waitPoll_eq]
    split <;> exact ⟨rfl, rfl, rfl, rfl, rfl, rfl, rfl, rfl, rfl, rfl, rfl, .inl rfl⟩
  | read a =>
    simp only [runHostOp, hostReadLogged]
    rcases hostRead_cases a s with h | ⟨-, h⟩ | ⟨-, d, h⟩ <;> rw [h] <;>
      exact ⟨rfl, rfl, rfl, rfl, rfl, rfl, rfl, rfl, rfl, rfl, rfl, .inl rfl⟩
  | write a d strb =>
    simp only [runHostOp]
    rcases hostWrite_cases a d strb s with h | ⟨-, h⟩ | ⟨-, -, -, h⟩ | ⟨-, -, h⟩ | ⟨-, b, -, h⟩ <;> rw [h]
    case inr.inr.inr.inr =>
      exact ⟨rfl, rfl, rfl, rfl, rfl, rfl, rfl, rfl, rfl, rfl, rfl, .inr ⟨b, d, strb, rfl⟩⟩
    all_goals exact ⟨rfl, rfl, rfl, rfl, rfl, rfl, rfl, rfl, rfl, rfl, rfl, .inl rfl⟩

/-- One step: the host's reset, a command executed, or no result written. -/
theorem step_results {s t : State} (h : step s = .next t) :
    (HostIssues s .reset ∧ ∃ rest, t = (s.endTurn.setHostOps rest).resetEvent) ∨
      (∃ i, EngineExecutes s i ∧ exec i s.endTurn = .next t) ∨ KeepsResults s t := by
  rcases step_cases h with ⟨-, rfl⟩ | ⟨op, rest, issued, -, rfl⟩ | run | ⟨e, -, -, rfl⟩
  · exact .inr (.inr ⟨rfl, rfl, rfl, rfl, rfl, rfl, rfl, rfl, rfl, rfl, rfl, .inl rfl⟩)
  · by_cases reset : op = .reset
    · subst reset
      exact .inl ⟨issued, rest, rfl⟩
    · obtain ⟨wMax, tvalid, gap, ordchk, t1, t2, t3, qcode, olen, erridx, obuf, ibuf⟩ :=
        runHostOp_keepsResults reset (s.endTurn.setHostOps rest)
      exact .inr (.inr ⟨wMax, tvalid, gap, ordchk, t1, t2, t3, qcode, olen, erridx, obuf, ibuf⟩)
  · exact .inr (.inl run)
  · exact .inr (.inr ⟨rfl, rfl, rfl, rfl, rfl, rfl, rfl, rfl, rfl, rfl, rfl, .inl rfl⟩)

/-! ### The invariant -/

/-- Right after reset nothing is written and every register of the invariant is 0 (R41). -/
theorem State.resetFor_inv {wMax : Len} (capacity : 1 ≤ wMax.toNat) : (State.resetFor wMax).Inv where
  capacity := capacity
  ibufCanonical := .nil
  ibufInside := nofun
  obufCanonical := .nil
  obufInside := nofun
  olenBound := Nat.zero_le _
  erridxBound := capacity
  thresholdsZero _ := ⟨rfl, rfl, rfl⟩

theorem KeepsResults.inv {s t : State} (kept : KeepsResults s t) (hs : s.Inv) : t.Inv := by
  obtain ⟨wMax, tvalid, -, -, t1, t2, t3, -, olen, erridx, obuf, ibuf⟩ := kept
  have obMax : t.obMax = s.obMax := by rw [State.obMax, wMax, State.obMax]
  have ibufKept : Memory.wf t.ibuf ∧ Memory.below t.ibuf s.wMax.toNat := by
    rcases ibuf with same | ⟨b, d, strb, written⟩
    · rw [same]
      exact ⟨hs.ibufCanonical, hs.ibufInside⟩
    · rw [written]
      exact ⟨Memory.writeWindow_wf hs.ibufCanonical _ _ _ _, Memory.writeWindow_below hs.ibufInside _ _ _⟩
  exact {
    capacity := by rw [wMax]; exact hs.capacity
    ibufCanonical := ibufKept.1
    ibufInside := by rw [wMax]; exact ibufKept.2
    obufCanonical := by rw [obuf]; exact hs.obufCanonical
    obufInside := by rw [obuf, obMax]; exact hs.obufInside
    olenBound := by rw [olen, obMax]; exact hs.olenBound
    erridxBound := by rw [erridx, wMax]; exact hs.erridxBound
    thresholdsZero := by rw [tvalid, t1, t2, t3]; exact hs.thresholdsZero }

/-- Bytes stored from index 0 inside the buffer keep OBUF canonical and inside its size. -/
theorem State.Inv.storeLine {s : State} (hs : s.Inv) {bytes : List Byte} (inside : bytes.length ≤ s.obMax)
    (draws : Nat) : (s.storeLine bytes draws).Inv :=
  { hs with
    obufCanonical := Memory.setRun_wf hs.obufCanonical 0 bytes
    obufInside := Memory.setRun_below hs.obufInside 0 bytes (by omega) }

/-- Every command keeps the invariant: a line that fits W_MAX has an output that fits OB_MAX, and a sample index below
W_MAX. -/
theorem exec_inv {i : Instr} {s t : State} (hs : s.Inv) (h : exec i s = .next t) : t.Inv := by
  cases exec_ends h with
  | sett => exact { hs with thresholdsZero := nofun }
  | quantGap => exact { hs with erridxBound := hs.capacity }
  | @packGap n j loaded fits policyA inLine =>
    have inside : (freeRun (packDraws s n.toNat) (outLen n.toNat)).length ≤ s.obMax := by
      rw [freeRun_length]
      exact outLen_mono fits
    have index : (BitVec.ofNat 16 j).toNat < s.wMax.toNat := by
      rw [BitVec.toNat_ofNat]
      exact (Nat.mod_le _ _).trans_lt (inLine.trans_le fits)
    exact { hs.storeLine inside (packDraws s n.toNat + outLen n.toNat) with erridxBound := index }
  | @pack n loaded fits =>
    have inside : (packedLine ((packSamples s n.toNat).map fun x => (classify x s.t1 s.t2 s.t3).codeOrZero)
        (outLen n.toNat)).length ≤ s.obMax := by
      rw [packedLine_length]
      exact outLen_mono fits
    have length : (BitVec.ofNat 16 (outLen n.toNat)).toNat ≤ s.obMax := by
      rw [outLen_toNat]
      exact outLen_mono fits
    exact { hs.storeLine inside (packDraws s n.toNat) with olenBound := length }
  | _ => exact { hs with }

/-- Settles O3: W_MAX is at least 1 whatever the opaque constant is. -/
theorem resetMeetsInvariant : Obligations.ResetMeetsInvariant := by
  unfold Obligations.ResetMeetsInvariant
  apply State.resetFor_inv
  have bound := Config.wMaxPred.isLt
  rw [Config.wMax, BitVec.toNat_ofNat]
  omega

/-- Settles O4: a reset restores the reset values, a command keeps the invariant on each path, and any other step writes
at most IBUF, inside its size. -/
theorem stepKeepsInvariant : Obligations.StepKeepsInvariant := by
  unfold Obligations.StepKeepsInvariant
  intro s t hs h
  rcases step_results h with ⟨-, rest, rfl⟩ | ⟨i, -, run⟩ | kept
  · exact { State.resetFor_inv hs.capacity with }
  · exact exec_inv (s := s.endTurn) { hs with } run
  · exact kept.inv hs

/-! ### OBUF below OLEN -/

/-- A PACK writes every byte below the OLEN it leaves, and a PACK that raises leaves OLEN and unwrites nothing. -/
theorem exec_outputWritten {i : Instr} {s t : State} (hs : s.OutputWritten) (h : exec i s = .next t) :
    t.OutputWritten := by
  cases exec_ends h with
  | @packGap n j =>
    intro k hk
    rw [packFailed_obuf]
    split
    · exact Option.some_ne_none _
    · exact hs k hk
  | @pack n =>
    intro k hk
    have stored : k < outLen n.toNat := by rw [← outLen_toNat]; exact hk
    rw [packDone_obuf, if_pos stored]
    exact Option.some_ne_none _
  | _ => exact hs

/-- Settles O5: only a PACK moves OLEN or writes OBUF, and a reset has OLEN = 0. -/
theorem stepKeepsOutputWritten : Obligations.StepKeepsOutputWritten := by
  unfold Obligations.StepKeepsOutputWritten
  intro s t hs h
  rcases step_results h with ⟨-, rest, rfl⟩ | ⟨i, -, run⟩ | kept
  · exact fun k hk => absurd hk (Nat.not_lt_zero k)
  · exact exec_outputWritten (s := s.endTurn) hs run
  · rw [State.OutputWritten, kept.olen, kept.obuf]
    exact hs

/-! ### Who writes a register, over every step -/

/-- Settles O40: of the commands only a SETT that succeeds writes a threshold. -/
theorem thresholdsWrittenOnlyBySett : Obligations.ThresholdsWrittenOnlyBySett := by
  unfold Obligations.ThresholdsWrittenOnlyBySett
  intro s t h changed
  rcases step_results h with ⟨issued, -⟩ | ⟨i, executes, run⟩ | kept
  · exact .inl issued
  · rcases exec_thresholds run with ⟨t1, t2, t3, tvalid⟩ | ⟨a, b, c, rfl, new⟩
    · simp [t1, t2, t3, tvalid] at changed
    · exact .inr ⟨a, b, c, executes, new⟩
  · simp [kept.t1, kept.t2, kept.t3, kept.tvalid] at changed

/-- Settles O41: of the commands only SETCFG writes CFG. -/
theorem configWrittenOnlyBySetcfg : Obligations.ConfigWrittenOnlyBySetcfg := by
  unfold Obligations.ConfigWrittenOnlyBySetcfg
  intro s t h changed
  rcases step_results h with ⟨issued, -⟩ | ⟨i, executes, run⟩ | kept
  · exact .inl issued
  · rcases exec_config run with ⟨gap, ordchk⟩ | ⟨g, o, rfl, new⟩
    · simp [gap, ordchk] at changed
    · exact .inr ⟨g, o, executes, new⟩
  · simp [kept.gap, kept.ordchk] at changed

/-- Settles O42: a result register changes only in a command, and each command's own writers name it. -/
theorem resultsWrittenOnlyByTheirCommand : Obligations.ResultsWrittenOnlyByTheirCommand := by
  unfold Obligations.ResultsWrittenOnlyByTheirCommand
  intro s t h notReset
  rcases step_results h with ⟨issued, -⟩ | ⟨i, executes, run⟩ | kept
  · exact absurd issued notReset
  · refine ⟨fun changed => ?_, fun changed => ?_, fun changed => ?_, fun k changed => ?_⟩
    · obtain ⟨x, rfl, ok⟩ := (exec_qcode run).resolve_left changed
      exact ⟨x, executes, ok⟩
    · obtain ⟨n, rfl, ok⟩ := (exec_olen run).resolve_left changed
      exact ⟨n, executes, ok⟩
    · obtain ⟨invalid, -, ⟨x, rfl⟩ | ⟨n, rfl⟩⟩ := (exec_erridx run).resolve_left fun same => changed same.1
      · exact ⟨invalid, .inl ⟨x, executes⟩⟩
      · exact ⟨invalid, .inr ⟨n, executes⟩⟩
    · rcases exec_obuf run with same | ⟨n, rfl, -, -, above, outcome⟩
      · exact absurd (congrArg (Memory.get · k) same) changed
      · exact ⟨n, executes, Nat.lt_of_not_le fun hk => changed (above k hk), outcome⟩
  · exact ⟨fun changed => absurd kept.qcode changed, fun changed => absurd kept.olen changed,
      fun changed => absurd kept.erridx changed, fun k changed => absurd (by rw [kept.obuf]) changed⟩

end Sys2Proof.Machine
end

section
/-! The host port of 20_memory.md, region by region: the registers as the host reads them (R71), ignored accesses (R62,
R72), the windows lane by lane (R64, R68, R69), and the lockout while BUSY (R70). -/

namespace Sys2Proof.Machine

/-! ### The register words as sums of their fields -/

theorem toNat_append_eq_add {m n : Nat} (x : BitVec m) (y : BitVec n) :
    (x ++ y).toNat = x.toNat * 2 ^ n + y.toNat := by
  rw [BitVec.toNat_append, ← Nat.shiftLeft_add_eq_or_of_lt y.isLt, Nat.shiftLeft_eq]

theorem State.statusWord_toNat (s : State) :
    s.statusWord.toNat = s.busy.toNat + s.errcode.bits.toNat * 2 ^ 4 + s.aerr.toNat * 2 ^ 8 + s.haz.toNat * 2 ^ 9 +
      s.tvalid.toNat * 2 ^ 10 := by
  rw [State.statusWord, BitVec.toNat_setWidth_of_le (by decide)]
  simp only [toNat_append_eq_add, BitVec.toNat_ofBool, BitVec.toNat_ofNat]
  omega

theorem State.cfgWord_toNat (s : State) : s.cfgWord.toNat = s.gap.toNat + s.ordchk.toNat * 2 := by
  rw [State.cfgWord, BitVec.toNat_setWidth_of_le (by decide)]
  simp only [toNat_append_eq_add, BitVec.toNat_ofBool]
  omega

theorem State.thrWord_toNat (s : State) :
    s.thrWord.toNat = s.t1.toNat * 2 ^ 16 + s.t2.toNat * 2 ^ 8 + s.t3.toNat := by
  rw [State.thrWord, BitVec.toNat_setWidth_of_le (by decide)]
  simp only [toNat_append_eq_add]
  omega

/-- Settles O46: each offset is the place of its register, whose word is the sum of its fields. -/
theorem registerReads : Obligations.RegisterReads := by
  unfold Obligations.RegisterReads
  exact fun s => ⟨rfl, ⟨s.statusWord, rfl, s.statusWord_toNat⟩, ⟨s.cfgWord, rfl, s.cfgWord_toNat⟩,
    ⟨s.thrWord, rfl, s.thrWord_toNat⟩, ⟨s.qcodeWord, rfl, BitVec.toNat_setWidth_of_le (by decide)⟩,
    ⟨s.olenWord, rfl, BitVec.toNat_setWidth_of_le (by decide)⟩,
    ⟨s.erridxWord, rfl, BitVec.toNat_setWidth_of_le (by decide)⟩⟩

/-! ### Regions -/

theorem regionOf_of_inIbufWindow {a : PortAddr} (h : InIbufWindow a) : ∃ b, regionOf a = .ibuf b :=
  ⟨wordOffset a - 0x10000, regionOf_ibuf (by omega) (by omega)⟩

theorem regionOf_of_inObufWindow {a : PortAddr} (h : InObufWindow a) : ∃ b, regionOf a = .obuf b :=
  ⟨wordOffset a - 0x20000, regionOf_obuf (by omega) (by omega)⟩

/-- Between the registers and the IBUF window, and above the OBUF window, every offset is reserved (R62). -/
theorem regionOf_reserved {a : PortAddr}
    (h : 0x00020 ≤ wordOffset a ∧ wordOffset a ≤ 0x0FFFC ∨ 0x30000 ≤ wordOffset a) : regionOf a = .reserved := by
  rcases h with ⟨low, high⟩ | above
  · have noRegister : ∀ c, c ≤ 0x0001C → wordOffset a ≠ c := fun c hc => by omega
    have belowIbuf : ¬ 0x10000 ≤ wordOffset a := by omega
    have belowObuf : ¬ 0x20000 ≤ wordOffset a := by omega
    simp [regionOf, noRegister, belowIbuf, belowObuf]
  · have aboveIbuf : ¬ wordOffset a ≤ 0x1FFFC := by omega
    have aboveObuf : ¬ InObufWindow a := by omega
    rw [regionOf_of_ge (by omega), if_neg aboveIbuf, if_neg aboveObuf]

/-! ### Accesses without an effect -/

theorem hostWrite_noStrobe (a : PortAddr) (d : Word) (s : State) : hostWrite a d 0 s = s := if_pos rfl

/-- Outside CMD, STATUS and the windows a write is ignored (R72). -/
theorem hostWrite_ignored {a : PortAddr} (notCmd : wordOffset a ≠ 0x00004) (notStatus : wordOffset a ≠ 0x00008)
    (notIbuf : ¬ InIbufWindow a) (notObuf : ¬ InObufWindow a) (d : Word) (strb : Strobe) (s : State) :
    hostWrite a d strb s = s := by
  unfold hostWrite
  split
  · rfl
  · cases region : regionOf a with
    | cmd => exact absurd (regionOf_cmd region) notCmd
    | status => exact absurd (regionOf_status region) notStatus
    | ibuf b => exact absurd (regionOf_ibuf_window region).1 notIbuf
    | obuf b => exact absurd (regionOf_obuf_window region).1 notObuf
    | _ => rfl

/-- Outside the windows a read has no side effect (R71). -/
theorem hostRead_outside_windows {a : PortAddr} (notIbuf : ¬ InIbufWindow a) (notObuf : ¬ InObufWindow a) (s : State) :
    (hostRead a s).2 = s := by
  unfold hostRead
  cases region : regionOf a with
  | ibuf b => exact absurd (regionOf_ibuf_window region).1 notIbuf
  | obuf b => exact absurd (regionOf_obuf_window region).1 notObuf
  | _ => rfl

/-- No host write changes OBUF (R69). -/
theorem hostWrite_obuf (a : PortAddr) (d : Word) (strb : Strobe) (s : State) :
    (hostWrite a d strb s).obuf = s.obuf := by
  rcases hostWrite_cases a d strb s with h | ⟨-, h⟩ | ⟨-, -, -, h⟩ | ⟨-, -, h⟩ | ⟨-, b, -, h⟩ <;> rw [h] <;> rfl

/-- Settles O47: the ignored offsets lie outside CMD, STATUS and the windows. -/
theorem ignoredAccesses : Obligations.IgnoredAccesses := by
  unfold Obligations.IgnoredAccesses
  intro a d strb s
  refine ⟨fun reserved => ⟨?_, ?_⟩, fun readOnly => ?_, hostWrite_noStrobe a d s, hostWrite_obuf a d strb s⟩
  · unfold hostRead
    rw [regionOf_reserved reserved]
  · exact hostWrite_ignored (by omega) (by omega) (by omega) (by omega) d strb s
  · exact hostWrite_ignored (by omega) (by omega) (by omega) (by omega) d strb s

/-! ### A window with BUSY = 0, lane by lane -/

/-- With BUSY = 0 a write to the IBUF window is its four lanes, whatever the strobes (R68, R72). -/
theorem hostWrite_ibuf_idle {a : PortAddr} {b : Nat} {s : State} (region : regionOf a = .ibuf b)
    (idle : s.busy = false) (d : Word) (strb : Strobe) :
    hostWrite a d strb s = s.setIbuf (writeWindow s.wMax.toNat b d strb s.ibuf) := by
  by_cases strobed : strb = 0
  · subst strobed
    have untouched : writeWindow s.wMax.toNat b d 0 s.ibuf = s.ibuf := by simp [writeWindow, writeLane]
    rw [hostWrite_noStrobe, untouched]
    rfl
  · unfold hostWrite
    rw [if_neg strobed, region]
    exact if_neg (by simp [idle])

theorem readWindow_idle {s : State} (idle : s.busy = false) (m : Memory) (size b : Nat) :
    readWindow m size b s = ((windowWord m size b s.draws).1, s.setDraws (windowWord m size b s.draws).2) :=
  if_neg (by simp [idle])

theorem hostRead_of_ibuf {a : PortAddr} {b : Nat} (region : regionOf a = .ibuf b) (s : State) :
    hostRead a s = readWindow s.ibuf s.wMax.toNat b s := by
  unfold hostRead
  rw [region]

theorem hostRead_of_obuf {a : PortAddr} {b : Nat} (region : regionOf a = .obuf b) (s : State) :
    hostRead a s = readWindow s.obuf s.obMax b s := by
  unfold hostRead
  rw [region]

theorem windowWord_lane_beyond {m : Memory} {size b draws j : Nat} (hj : j < 4) (beyond : size ≤ b + j) :
    (windowWord m size b draws).1.extractLsb' (8 * j) 8 = 0 := by
  rw [windowWord_lane m size b draws hj, lane, if_neg (by omega)]

theorem windowWord_lane_written {m : Memory} {size b draws j : Nat} {v : Byte} (hj : j < 4) (inside : b + j < size)
    (written : Memory.get m (b + j) = some v) : (windowWord m size b draws).1.extractLsb' (8 * j) 8 = v := by
  rw [windowWord_lane m size b draws hj, lane, if_pos inside, readByte_written written]

/-- A word is its four lanes. -/
theorem word_eq_of_lanes {v w : Word} (h : ∀ j, j < 4 → v.extractLsb' (8 * j) 8 = w.extractLsb' (8 * j) 8) : v = w := by
  have bytes : ∀ j, j < 4 → v.toNat / 2 ^ (8 * j) % 2 ^ 8 = w.toNat / 2 ^ (8 * j) % 2 ^ 8 := fun j hj => by
    rw [← toNat_extractLsb'_eq, ← toNat_extractLsb'_eq, h j hj]
  have b0 := bytes 0 (by omega)
  have b1 := bytes 1 (by omega)
  have b2 := bytes 2 (by omega)
  have b3 := bytes 3 (by omega)
  have hv := v.isLt
  have hw := w.isLt
  apply BitVec.eq_of_toNat_eq
  omega

theorem unwrittenLanes_eq_zero {m : Memory} {size b n : Nat}
    (h : ∀ j, j < n → b + j < size → Memory.get m (b + j) ≠ none) : unwrittenLanes m size b n = 0 := by
  rw [unwrittenLanes, List.countP_eq_zero]
  intro j hj
  simpa using h j (List.mem_range.1 hj)

/-- No two unwritten lanes take the same draw: the later one counts the earlier one. -/
theorem unwrittenLanes_ne {m : Memory} {size b j k : Nat} (hj : b + j < size) (unwrittenJ : Memory.get m (b + j) = none)
    (hk : b + k < size) (unwrittenK : Memory.get m (b + k) = none) (hne : k ≠ j) :
    unwrittenLanes m size b k ≠ unwrittenLanes m size b j := by
  rcases Nat.lt_or_gt_of_ne hne with h | h
  · exact Nat.ne_of_lt (unwrittenLanes_lt h hk unwrittenK)
  · exact Nat.ne_of_gt (unwrittenLanes_lt h hj unwrittenJ)

/-- A window read draws a byte of its own for each unwritten lane: lane j after those of the lanes below it. -/
theorem readWindow_lanesDrawn {s : State} (idle : s.busy = false) (m : Memory) (size b : Nat) :
    LanesDrawn m size b s (readWindow m size b s) := by
  rw [readWindow_idle idle]
  refine ⟨by rw [windowWord_draws]; rfl, fun j => s.draws + unwrittenLanes m size b j,
    fun j hj inside unwritten => ⟨Nat.le_add_right _ _, ?_, ?_, fun k _ insideK unwrittenK hne same => ?_⟩⟩
  · exact Nat.add_lt_add_left (unwrittenLanes_lt hj inside unwritten) _
  · rw [windowWord_lane m size b s.draws hj, lane_unwritten inside unwritten]
  · exact unwrittenLanes_ne inside unwritten insideK unwrittenK hne (Nat.add_left_cancel same)

/-- With BUSY = 0 a read moves at most the draw counter, forward (R40, R71). -/
theorem hostRead_idle {s : State} (idle : s.busy = false) (a : PortAddr) :
    ∃ d, s.draws ≤ d ∧ (hostRead a s).2 = { s with draws := d } := by
  cases region : regionOf a with
  | ibuf b =>
    rw [hostRead_of_ibuf region]
    exact ⟨_, Nat.le_add_right _ _, (readWindow_lanesDrawn idle _ _ _).1⟩
  | obuf b =>
    rw [hostRead_of_obuf region]
    exact ⟨_, Nat.le_add_right _ _, (readWindow_lanesDrawn idle _ _ _).1⟩
  | _ => exact ⟨s.draws, Nat.le_refl _, by simp [hostRead, region]⟩

/-- Settles O50: the four lanes of the write, at every index. -/
theorem ibufWriteLanes : Obligations.IbufWriteLanes := by
  unfold Obligations.IbufWriteLanes
  intro a b d strb s ha hb idle
  refine ⟨_, hostWrite_ibuf_idle (regionOf_ibuf ha hb) idle d strb, fun x => ?_⟩
  have order := and_comm (a := strb.getLsbD (x - b) = true) (b := x < s.wMax.toNat)
  simp only [Memory.get_writeWindow, order, dataByte]

/-- Settles O51: the lanes of the word read from the window's buffer. -/
theorem windowReadLanes : Obligations.WindowReadLanes := by
  unfold Obligations.WindowReadLanes
  intro a b s j idle hb hj
  refine ⟨hostRead_idle idle a, fun ha => ?_, fun ha => ?_⟩
  · rw [hostRead_of_ibuf (regionOf_ibuf ha hb), readWindow_idle idle]
    exact ⟨windowWord_lane_beyond hj, fun v => windowWord_lane_written hj⟩
  · rw [hostRead_of_obuf (regionOf_obuf ha hb), readWindow_idle idle]
    exact ⟨windowWord_lane_beyond hj, fun v => windowWord_lane_written hj⟩

theorem allStrobes_getLsbD {j : Nat} (hj : j < 4) : (0b1111#4).getLsbD j = true := by
  interval_cases j <;> rfl

/-- Settles O52: after the write each of the four bytes is held, so the read draws nothing and gives them back. -/
theorem ibufWriteReadBack : Obligations.IbufWriteReadBack := by
  unfold Obligations.IbufWriteReadBack
  intro a b d s ha hb idle inside
  have region := regionOf_ibuf ha hb
  have held : ∀ j, j < 4 →
      Memory.get (writeWindow s.wMax.toNat b d 0b1111#4 s.ibuf) (b + j) = some (d.extractLsb' (8 * j) 8) := by
    intro j hj
    rw [Memory.get_writeWindow, Nat.add_sub_cancel_left, if_pos ⟨by omega, by omega, allStrobes_getLsbD hj, by omega⟩,
      dataByte]
  rw [hostWrite_ibuf_idle region idle, hostRead_of_ibuf region,
    readWindow_idle ((s.setIbuf_busy _).trans idle)]
  refine Prod.ext (word_eq_of_lanes fun j hj => ?_) ?_
  · exact windowWord_lane_written hj (show b + j < s.wMax.toNat by omega) (held j hj)
  · have noDraw : unwrittenLanes (writeWindow s.wMax.toNat b d 0b1111#4 s.ibuf) s.wMax.toNat b 4 = 0 :=
      unwrittenLanes_eq_zero fun j hj _ => by simp [held j hj]
    simp only [windowWord_draws, State.setIbuf_ibuf, State.setIbuf_wMax, noDraw]
    rfl

/-- Settles O60: a window read is the read of its buffer. -/
theorem windowReadDraws : Obligations.WindowReadDraws := by
  unfold Obligations.WindowReadDraws
  intro a b s idle hb
  refine ⟨fun ha => ?_, fun ha => ?_⟩
  · rw [hostRead_of_ibuf (regionOf_ibuf ha hb)]
    exact readWindow_lanesDrawn idle _ _ _
  · rw [hostRead_of_obuf (regionOf_obuf ha hb)]
    exact readWindow_lanesDrawn idle _ _ _

/-! ### The lockout while BUSY, and HAZ -/

/-- A write that R70 names, while BUSY, is a hazard and nothing else. -/
theorem hostWrite_hazard {a : PortAddr} {strb : Strobe} {s : State} (busy : s.busy = true) (strobed : strb ≠ 0)
    (locked : wordOffset a = 0x00004 ∨ InIbufWindow a ∨ InObufWindow a) (d : Word) :
    hostWrite a d strb s = s.setHaz := by
  rcases locked with cmd | ibuf | obuf
  · rw [hostWrite_of_cmd cmd strobed, writeCmd_busy busy]
  · obtain ⟨b, region⟩ := regionOf_of_inIbufWindow ibuf
    unfold hostWrite
    rw [if_neg strobed, region]
    exact if_pos busy
  · obtain ⟨b, region⟩ := regionOf_of_inObufWindow obuf
    unfold hostWrite
    rw [if_neg strobed, region]
    exact if_pos busy

/-- A read of a window, while BUSY, returns 0 and is a hazard (R70). -/
theorem hostRead_hazard {a : PortAddr} {s : State} (busy : s.busy = true) (locked : InIbufWindow a ∨ InObufWindow a) :
    hostRead a s = (0, s.setHaz) := by
  rcases locked with ibuf | obuf
  · obtain ⟨b, region⟩ := regionOf_of_inIbufWindow ibuf
    exact (hostRead_of_ibuf region s).trans (if_pos busy)
  · obtain ⟨b, region⟩ := regionOf_of_inObufWindow obuf
    exact (hostRead_of_obuf region s).trans (if_pos busy)

/-- A write that R70 does not name leaves a clear HAZ clear. -/
theorem hostWrite_haz_stays {a : PortAddr} {strb : Strobe} {s : State}
    (free : strb = 0 ∨ ¬ (wordOffset a = 0x00004 ∨ InIbufWindow a ∨ InObufWindow a)) (hs : s.haz = false) (d : Word) :
    (hostWrite a d strb s).haz = false := by
  rcases free with rfl | free
  · rw [hostWrite_noStrobe, hs]
  · by_cases status : wordOffset a = 0x00008
    · rw [hostWrite_of_status status, writeStatus]
      split
      · rw [State.clearSticky_haz, hs, Bool.false_and]
      · exact hs
    · rw [hostWrite_ignored (fun h => free (.inl h)) status (fun h => free (.inr (.inl h)))
        (fun h => free (.inr (.inr h))), hs]

/-- Settles O53: the accesses R70 names, and the others. -/
theorem busyHazards : Obligations.BusyHazards := by
  unfold Obligations.BusyHazards
  exact fun a d strb s busy => ⟨fun strobed locked => hostWrite_hazard busy strobed locked d, hostRead_hazard busy,
    fun free hs => hostWrite_haz_stays free hs d,
    fun outside => hostRead_outside_windows (fun h => outside (.inl h)) (fun h => outside (.inr h)) s⟩

/-- A write that sets HAZ is one of R70's, while BUSY. -/
theorem hostWrite_haz_rises {a : PortAddr} {d : Word} {strb : Strobe} {s : State} (hs : s.haz = false)
    (ht : (hostWrite a d strb s).haz = true) :
    s.busy = true ∧ strb ≠ 0 ∧ (wordOffset a = 0x00004 ∨ InIbufWindow a ∨ InObufWindow a) := by
  have busy : s.busy = true := by
    rcases hostWrite_cases a d strb s with h | ⟨busy, -⟩ | ⟨-, -, -, h⟩ | ⟨-, -, h⟩ | ⟨-, b, -, h⟩
    case inr.inl => exact busy
    -- every other write leaves a clear HAZ clear
    all_goals simp [h, hs] at ht
  refine ⟨busy, fun noStrobe => ?_, Decidable.byContradiction fun free => ?_⟩
  · simp [hostWrite_haz_stays (.inl noStrobe) hs d] at ht
  · simp [hostWrite_haz_stays (.inr free) hs d] at ht

/-- A read that sets HAZ is one of a window, while BUSY. -/
theorem hostReadLogged_haz_rises {a : PortAddr} {s : State} (hs : s.haz = false)
    (ht : (hostReadLogged a s).haz = true) : s.busy = true ∧ (InIbufWindow a ∨ InObufWindow a) := by
  rw [hostReadLogged, State.logRead_haz] at ht
  refine ⟨?_, Decidable.byContradiction fun outside => ?_⟩
  · rcases hostRead_cases a s with h | ⟨busy, -⟩ | ⟨-, d, h⟩
    · simp [h, hs] at ht
    · exact busy
    · simp [h, hs] at ht
  · rw [hostRead_outside_windows (fun h => outside (.inl h)) (fun h => outside (.inr h)) s] at ht
    simp [hs] at ht

/-- No read clears HAZ. -/
theorem hostReadLogged_haz_sticky (a : PortAddr) {s : State} (hs : s.haz = true) : (hostReadLogged a s).haz = true := by
  rw [hostReadLogged, State.logRead_haz]
  rcases hostRead_cases a s with h | ⟨-, h⟩ | ⟨-, d, h⟩ <;> rw [h]
  · exact hs
  · exact s.setHaz_haz
  · exact hs

/-- The only host write that clears HAZ is the W1C write of R67. -/
theorem hostWrite_haz_falls {a : PortAddr} {d : Word} {strb : Strobe} {s : State} (hs : s.haz = true)
    (ht : (hostWrite a d strb s).haz = false) : strb = 0b1111#4 ∧ wordOffset a = 0x00008 ∧ d.getLsbD 9 = true := by
  rcases hostWrite_cases a d strb s with h | ⟨-, h⟩ | ⟨-, -, -, h⟩ | ⟨region, full, h⟩ | ⟨-, b, -, h⟩
  case inr.inr.inr.inl =>
    rw [h, State.clearSticky_haz, hs, Bool.true_and] at ht
    exact ⟨full, regionOf_status region, by simpa using ht⟩
  -- every other write sets HAZ or leaves it as it was
  all_goals simp [h, hs] at ht

@[simp] theorem waitPoll_haz (s : State) : (waitPoll s).haz = s.haz := by
  rw [waitPoll_eq]
  split <;> rfl

/-- One step leaves HAZ, unless the host moves. -/
theorem step_haz {s t : State} (h : step s = .next t) :
    t.haz = s.haz ∨ ∃ op rest, HostIssues s op ∧ t = runHostOp op (s.endTurn.setHostOps rest) := by
  rcases step_cases h with ⟨-, rfl⟩ | ⟨op, rest, issued, -, ht⟩ | ⟨i, -, run⟩ | ⟨e, -, -, rfl⟩
  · exact .inl rfl
  · exact .inr ⟨op, rest, issued, ht⟩
  · exact .inl (exec_keepsHostSide run).haz
  · exact .inl rfl

/-- Settles O44: the engine never writes HAZ (R29), and of the host's operations each has its own law. -/
theorem hazIsStickyHazard : Obligations.HazIsStickyHazard := by
  unfold Obligations.HazIsStickyHazard
  intro s t h
  rcases step_haz h with same | ⟨op, rest, issued, rfl⟩
  · exact ⟨fun low high => by simp [same, low] at high, fun high low => by simp [same, high] at low⟩
  · cases op with
    | read a =>
      refine ⟨fun hs ht => ?_, fun hs ht => ?_⟩
      · obtain ⟨busy, window⟩ := hostReadLogged_haz_rises (s := s.endTurn.setHostOps rest) hs ht
        exact ⟨busy, .inr ⟨a, issued, window⟩⟩
      · simp [runHostOp, hostReadLogged_haz_sticky a (s := s.endTurn.setHostOps rest) hs] at ht
    | write a d strb =>
      refine ⟨fun hs ht => ?_, fun hs ht => ?_⟩
      · obtain ⟨busy, strobed, locked⟩ := hostWrite_haz_rises (s := s.endTurn.setHostOps rest) hs ht
        exact ⟨busy, .inl ⟨a, d, strb, issued, strobed, locked⟩⟩
      · obtain ⟨rfl, status, bit⟩ := hostWrite_haz_falls (s := s.endTurn.setHostOps rest) hs ht
        exact .inr ⟨a, d, issued, status, bit⟩
    | wait => refine ⟨fun hs ht => ?_, fun hs ht => ?_⟩ <;> simp [runHostOp, hs] at ht
    | reset => exact ⟨fun _ ht => (nomatch ht), fun _ _ => .inl issued⟩

/-- Settles O54: the lockout leaves AERR, HAZ and the host's own record to the host, and nothing else. -/
theorem acceptedCommandIsFixed : Obligations.AcceptedCommandIsFixed := by
  unfold Obligations.AcceptedCommandIsFixed
  intro s op busy notReset
  obtain ⟨aerr, haz, hostOps, reads, e⟩ := runHostOp_busy busy notReset
  rw [e]
  exact ⟨⟨rfl, rfl, rfl, rfl, rfl, rfl, rfl, rfl, rfl, rfl, rfl, rfl, rfl, rfl, rfl⟩, rfl⟩

end Sys2Proof.Machine
end

section
/-! Host and engine together (20_memory.md R75; 70_reset_and_hazards.md R236, R241): the outcome of a command under
every interleaving, its completion under every schedule, and the pseudo-instructions RUN and LOADLINE (30_encoding.md
R101). -/

namespace Sys2Proof.Machine

/-! ### The outcome does not rest on the host's transactions -/

/-- The fields the host may touch while BUSY, AERR and HAZ among them, are no results. -/
theorem sameResults_withHostFields (s : State) (aerr haz : Bool) (ops : List HostOp) (tr : List Agent)
    (rd : List (PortAddr × Word)) :
    SameResults { s with aerr := aerr, haz := haz, hostOps := ops, turns := tr, reads := rd } s :=
  ⟨rfl, rfl, rfl, rfl, rfl, rfl, rfl, rfl, rfl, rfl, rfl, rfl, rfl, rfl, rfl⟩

theorem SameResults.symm {s t : State} (h : SameResults s t) : SameResults t s := by
  obtain ⟨wMax, busy, errcode, tvalid, gap, ordchk, t1, t2, t3, qcode, olen, erridx, pend, ibuf, obuf⟩ := h
  exact ⟨wMax.symm, busy.symm, errcode.symm, tvalid.symm, gap.symm, ordchk.symm, t1.symm, t2.symm, t3.symm, qcode.symm,
    olen.symm, erridx.symm, pend.symm, ibuf.symm, obuf.symm⟩

/-- The lockout of R70 over any number of transactions. -/
theorem runHostOps_busy {ops : List HostOp} {s : State} (busy : s.busy = true) (noReset : .reset ∉ ops) :
    ∃ aerr haz hostOps reads,
      runHostOps ops s = { s with aerr := aerr, haz := haz, hostOps := hostOps, reads := reads } := by
  induction ops generalizing s with
  | nil => exact ⟨_, _, _, _, rfl⟩
  | cons op ops ih =>
    obtain ⟨notReset, noReset⟩ := List.ne_and_not_mem_of_not_mem_cons noReset
    obtain ⟨aerr, haz, hostOps, reads, e⟩ := runHostOp_busy busy notReset.symm
    have first : runHostOps (op :: ops) s = runHostOps ops (runHostOp op s) := rfl
    rw [first, e]
    exact ih (s := { s with aerr := aerr, haz := haz, hostOps := hostOps, reads := reads }) busy noReset

/-- The engine step carries the host's fields through, AERR aside, which an error sets. -/
theorem engineStep_host_fields {s u : State} (h : engineStep s = .next u) (aerr haz : Bool) (ops : List HostOp)
    (tr : List Agent) (rd : List (PortAddr × Word)) :
    ∃ aerr', engineStep { s with aerr := aerr, haz := haz, hostOps := ops, turns := tr, reads := rd } =
      .next { u with aerr := aerr', haz := haz, hostOps := ops, turns := tr, reads := rd } := by
  cases hd : decode s.pend with
  | ok i =>
    rw [engineStep_of_decode hd] at h
    obtain ⟨aerr', run, -⟩ := exec_host_fields i s u aerr haz ops tr rd h
    exact ⟨aerr', (engineStep_of_decode (by exact hd)).trans run⟩
  | error e =>
    rw [engineStep_of_illegal hd] at h
    cases h
    exact ⟨true, engineStep_of_illegal hd⟩

/-- Settles O55: the transactions touch the host's fields alone, and the engine carries those through. -/
theorem outcomeIndependentOfInterleaving : Obligations.OutcomeIndependentOfInterleaving := by
  unfold Obligations.OutcomeIndependentOfInterleaving
  intro s t u ops busy noReset now later
  obtain ⟨aerr, haz, hostOps, reads, e⟩ := runHostOps_busy busy noReset
  obtain ⟨aerr', carried⟩ := engineStep_host_fields now aerr haz hostOps s.turns reads
  rw [e] at later
  obtain rfl := Host.Outcome.next.inj (carried.symm.trans later)
  exact ⟨(sameResults_withHostFields t aerr' haz hostOps s.turns reads).symm, rfl⟩

/-! ### Every accepted command completes (R241) -/

/-- While BUSY one of the agents moves. -/
theorem mover_of_busy {s : State} (busy : s.busy = true) : mover s = some .engine ∨ mover s = some .host := by
  cases hm : mover s with
  | none => simp [(mover_none hm).1] at busy
  | some agent => cases agent <;> simp

/-- No host operation moves the schedule. -/
theorem runHostOp_turns (op : HostOp) (s : State) : (runHostOp op s).turns = s.turns := by
  cases op with
  | reset => rfl
  | wait =>
    rw [runHostOp, waitPoll_eq]
    split <;> rfl
  | read a =>
    rw [runHostOp, hostReadLogged, State.logRead_turns]
    rcases hostRead_cases a s with h | ⟨-, h⟩ | ⟨-, d, h⟩ <;> rw [h]
    · exact s.setHaz_turns
    · exact s.setDraws_turns d
  | write a d strb =>
    rw [runHostOp]
    rcases hostWrite_cases a d strb s with h | ⟨-, h⟩ | ⟨-, -, -, h⟩ | ⟨-, -, h⟩ | ⟨-, b, -, h⟩ <;> rw [h] <;> rfl

/-- A host operation leaves the rest of the host program, before which a WAIT may stand again (R101). -/
theorem runHostOp_hostOps (op : HostOp) (s : State) :
    (runHostOp op s).hostOps = s.hostOps ∨ (runHostOp op s).hostOps = .wait :: s.hostOps := by
  cases op with
  | reset => exact .inl rfl
  | wait =>
    rw [runHostOp, waitPoll_eq]
    split
    · exact .inr rfl
    · exact .inl rfl
  | read a =>
    rw [runHostOp, hostReadLogged, State.logRead_hostOps]
    rcases hostRead_cases a s with h | ⟨-, h⟩ | ⟨-, d, h⟩ <;> rw [h] <;> exact .inl rfl
  | write a d strb =>
    rw [runHostOp]
    rcases hostWrite_cases a d strb s with h | ⟨-, h⟩ | ⟨-, -, -, h⟩ | ⟨-, -, h⟩ | ⟨-, b, -, h⟩ <;> rw [h] <;>
      exact .inl rfl

/-- A run of one step. -/
theorem run_one {s t : State} (h : step s = .next t) : Host.Core.run Sys2Proof.core 1 s = .next t := run_succ 0 h

/-- When the engine moves, BUSY falls. -/
theorem step_of_engine_clears_busy {s : State} (h : mover s = some .engine) :
    ∃ t, step s = .next t ∧ t.busy = false := by
  obtain ⟨t, run, idle⟩ := engineStep_next s.endTurn
  exact ⟨t, (step_of_engine h).trans run, idle⟩

/-- BUSY falls within as many steps as the schedule has turns, and one: each of the host's moves uses up a turn. -/
theorem run_clears_busy {s : State} (busy : s.busy = true) :
    ∃ k t, k ≤ s.turns.length + 1 ∧ Host.Core.run Sys2Proof.core k s = .next t ∧ t.busy = false := by
  induction hturns : s.turns generalizing s with
  | nil =>
    have engine : mover s = some .engine := mover_eq_engine busy (.inr (by simp [hturns]))
    obtain ⟨t, run, idle⟩ := step_of_engine_clears_busy engine
    exact ⟨1, t, Nat.le_add_left _ _, run_one run, idle⟩
  | cons a turns ih =>
    rcases mover_of_busy busy with engine | host
    · obtain ⟨t, run, idle⟩ := step_of_engine_clears_busy engine
      exact ⟨1, t, Nat.le_add_left _ _, run_one run, idle⟩
    · obtain ⟨op, rest, ops⟩ := mover_host host
      have first := step_of_host host ops
      have fewer : (runHostOp op (s.endTurn.setHostOps rest)).turns = turns := by
        rw [runHostOp_turns, State.setHostOps_turns, State.endTurn_turns, hturns, List.tail_cons]
      cases still : (runHostOp op (s.endTurn.setHostOps rest)).busy with
      | false => exact ⟨1, _, Nat.le_add_left _ _, run_one first, still⟩
      | true =>
        obtain ⟨k, t, bound, run, idle⟩ := ih still fewer
        exact ⟨k + 1, t, Nat.succ_le_succ bound, (run_succ k first).trans run, idle⟩

/-- With no reset to come the engine's turn comes within as many steps as the schedule has turns, and finds all but the
host's fields as they were. -/
theorem run_reaches_engine {s : State} (busy : s.busy = true) (noReset : .reset ∉ s.hostOps) :
    ∃ k aerr haz ops tr rd, k ≤ s.turns.length ∧
      Host.Core.run Sys2Proof.core k s =
        .next { s with aerr := aerr, haz := haz, hostOps := ops, turns := tr, reads := rd } ∧
      mover { s with aerr := aerr, haz := haz, hostOps := ops, turns := tr, reads := rd } = some .engine := by
  induction hturns : s.turns generalizing s with
  | nil => exact ⟨0, _, _, _, _, _, Nat.zero_le _, rfl, mover_eq_engine busy (.inr (by simp [hturns]))⟩
  | cons a turns ih =>
    rcases mover_of_busy busy with engine | host
    · exact ⟨0, _, _, _, _, _, Nat.zero_le _, rfl, engine⟩
    · obtain ⟨op, rest, ops⟩ := mover_host host
      rw [ops] at noReset
      obtain ⟨notReset, noReset⟩ := List.ne_and_not_mem_of_not_mem_cons noReset
      have first := step_of_host host ops
      have program := runHostOp_hostOps op (s.endTurn.setHostOps rest)
      obtain ⟨aerr, haz, hostOps, reads, e⟩ := runHostOp_busy (s := s.endTurn.setHostOps rest) busy notReset.symm
      rw [e] at first program
      have noReset' : .reset ∉ hostOps := by
        rcases program with same | again
        · rw [show hostOps = rest from same]
          exact noReset
        · rw [show hostOps = .wait :: rest from again]
          simp [noReset]
      have fewer : s.endTurn.turns = turns := by rw [State.endTurn_turns, hturns, List.tail_cons]
      obtain ⟨k, aerr', haz', ops', tr, rd, bound, run, engine⟩ := ih
        (s := { s.endTurn with aerr := aerr, haz := haz, hostOps := hostOps, reads := reads }) busy noReset' fewer
      exact ⟨k + 1, aerr', haz', ops', tr, rd, Nat.succ_le_succ bound, (run_succ k first).trans run, engine⟩

/-- Settles O56: the schedule is finite, and each of the host's moves while BUSY uses up one of its turns. -/
theorem acceptedCommandCompletes : Obligations.AcceptedCommandCompletes := by
  unfold Obligations.AcceptedCommandCompletes
  refine fun s busy => ⟨run_clears_busy busy, fun noReset => ?_⟩
  obtain ⟨k, aerr, haz, ops, tr, rd, bound, run, engine⟩ := run_reaches_engine busy noReset
  obtain ⟨t, last, idle⟩ := step_of_engine_clears_busy engine
  exact ⟨k, _, t, bound, run, engine, rfl, sameResults_withHostFields s aerr haz ops tr rd, rfl, last, idle⟩

/-! ### RUN (R101, R236) -/

theorem Completes.busy_eq {s t : State} (h : Completes s t) : t.busy = false := by
  obtain ⟨u, -, -, rfl | ⟨c, rfl⟩⟩ := h <;> rfl

section Run
variable {s u : State} {i : Instr} (busy : s.busy = true) (hd : decode s.pend = .ok i) (hx : exec i s = .next u)
  (rest : List HostOp)
include busy hd hx

/-- The engine has the turn: it executes the command, and the next poll of WAIT ends the loop. -/
theorem run_engine_then_wait (tr : List Agent) (rd : List (PortAddr × Word)) (turn : tr.head? ≠ some .host) :
    ∃ k t, Host.Core.run Sys2Proof.core k { s with hostOps := .wait :: rest, turns := tr, reads := rd } = .next t ∧
      t = { u with hostOps := rest, turns := t.turns, reads := t.reads } := by
  have haz : u.haz = s.haz := (exec_keepsHostSide hx).haz
  have idle : u.busy = false := (exec_completes hx).busy_eq
  obtain ⟨aerr, carried, sameAerr⟩ := exec_host_fields i s u s.aerr s.haz (.wait :: rest) tr.tail rd hx
  rw [sameAerr rfl, ← haz] at carried
  have engine : mover { s with hostOps := .wait :: rest, turns := tr, reads := rd } = some .engine :=
    mover_eq_engine busy (.inr turn)
  have executes : step { s with hostOps := .wait :: rest, turns := tr, reads := rd } =
      .next { u with hostOps := .wait :: rest, turns := tr.tail, reads := rd } := by
    rw [step_of_engine engine, engineStep_of_decode (by exact hd)]
    exact haz ▸ carried
  have host : mover { u with hostOps := .wait :: rest, turns := tr.tail, reads := rd } = some .host :=
    mover_eq_host rfl (.inl idle)
  have polls := step_of_host host rfl
  rw [runHostOp, waitPoll_eq, if_neg (by simp [idle])] at polls
  exact ⟨2, _, (run_succ 1 executes).trans (run_one polls), rfl⟩

/-- Every poll of WAIT while BUSY uses up a turn of the host and changes only the record of reads. -/
theorem run_wait (tr : List Agent) (rd : List (PortAddr × Word)) :
    ∃ k t, Host.Core.run Sys2Proof.core k { s with hostOps := .wait :: rest, turns := tr, reads := rd } = .next t ∧
      t = { u with hostOps := rest, turns := t.turns, reads := t.reads } := by
  induction tr generalizing rd with
  | nil => exact run_engine_then_wait busy hd hx rest [] rd nofun
  | cons a tr ih =>
    cases a with
    | engine => exact run_engine_then_wait busy hd hx rest _ rd nofun
    | host =>
      have host : mover { s with hostOps := .wait :: rest, turns := .host :: tr, reads := rd } = some .host :=
        mover_eq_host rfl (.inr rfl)
      have polls := step_of_host host rfl
      rw [runHostOp, waitPoll_eq, if_pos (by exact busy)] at polls
      obtain ⟨k, t, run, ht⟩ := ih ((statusAddr, s.statusWord) :: rd)
      exact ⟨k + 1, t, (run_succ k polls).trans run, ht⟩

end Run

/-- Settles O57: the write is accepted at once, since BUSY is 0, and WAIT ends with the command's execution. -/
theorem runCommandReachesItsResult : Obligations.RunCommandReachesItsResult := by
  unfold Obligations.RunCommandReachesItsResult
  intro s i rest idle ops
  have accepts : step s = .next { s with
      pend := encode i, busy := true, hostOps := .wait :: rest, turns := s.turns.tail } := by
    rw [step_of_host (mover_eq_host ops (.inl idle)) ops, cmdWrite, wr, runHostOp,
      hostWrite_of_cmd rfl (by decide), writeCmd_idle (by exact idle), if_pos rfl]
    rfl
  obtain ⟨u, hx⟩ := exec_next i { s with pend := encode i, busy := true }
  obtain ⟨k, t, run, ht⟩ := run_wait rfl (decode_encode i) hx rest s.turns.tail s.reads
  exact ⟨k + 1, t, u, (run_succ k accepts).trans run, hx, ht⟩

/-! ### LOADLINE (R101) -/

/-- The transaction of LOADLINE at word w. -/
def lineWrite (xs : List Byte) (w : Nat) : HostOp := wr (BitVec.ofNat 18 (0x10000 + 4 * w)) (lineWord xs w)

theorem loadLine_eq (xs : List Byte) : loadLine xs = (List.range' 0 ((xs.length + 3) / 4)).map (lineWrite xs) := by
  rw [← List.range_eq_range']
  rfl

/-- Byte j of word w is sample 4w + j. -/
theorem dataByte_lineWord (xs : List Byte) (w : Nat) {j : Nat} (hj : j < 4) :
    dataByte (lineWord xs w) j = sampleOrZero xs (4 * w + j) := by
  obtain ⟨b0, b1, b2, b3⟩ := lane_of_word (sampleOrZero xs (4 * w)) (sampleOrZero xs (4 * w + 1))
    (sampleOrZero xs (4 * w + 2)) (sampleOrZero xs (4 * w + 3))
  obtain rfl | rfl | rfl | rfl : j = 0 ∨ j = 1 ∨ j = 2 ∨ j = 3 := by omega
  · exact b0
  · exact b1
  · exact b2
  · exact b3

/-- What the write at word w leaves in a buffer. -/
theorem get_writeWindow_lineWord (m : Memory) (size w x : Nat) (xs : List Byte) :
    Memory.get (writeWindow size (4 * w) (lineWord xs w) 0b1111#4 m) x =
      if 4 * w ≤ x ∧ x < 4 * w + 4 ∧ x < size then some (sampleOrZero xs x) else Memory.get m x := by
  rw [Memory.get_writeWindow]
  by_cases inWord : 4 * w ≤ x ∧ x < 4 * w + 4
  · obtain ⟨j, hj, rfl⟩ : ∃ j, j < 4 ∧ x = 4 * w + j := ⟨x - 4 * w, by omega, by omega⟩
    simp only [Nat.add_sub_cancel_left, dataByte_lineWord xs w hj, allStrobes_getLsbD hj, true_and]
  · rw [if_neg (fun h => inWord ⟨h.1, h.2.1⟩), if_neg (fun h => inWord ⟨h.1, h.2.1⟩)]

/-- One transaction of LOADLINE, with BUSY = 0. -/
theorem step_lineWrite {s : State} {xs : List Byte} {w : Nat} {rest : List HostOp} (idle : s.busy = false)
    (hw : w < 0x4000) (ops : s.hostOps = lineWrite xs w :: rest) :
    step s = .next { s with
      ibuf := writeWindow s.wMax.toNat (4 * w) (lineWord xs w) 0b1111#4 s.ibuf, hostOps := rest,
      turns := s.turns.tail } := by
  have offset : wordOffset (BitVec.ofNat 18 (0x10000 + 4 * w)) = 0x10000 + 4 * w := by
    rw [wordOffset, BitVec.toNat_ofNat]
    omega
  rw [step_of_host (mover_eq_host ops (.inl idle)) ops, lineWrite, wr, runHostOp,
    hostWrite_ibuf_idle (regionOf_ibuf offset (by omega)) (by exact idle)]
  rfl

/-- The transactions of words w to w + m - 1, one after another: with BUSY = 0 the host has every move. -/
theorem run_lineWrites (xs : List Byte) (rest : List HostOp) (m : Nat) {w : Nat} {s : State} (idle : s.busy = false)
    (hw : w + m ≤ 0x4000) (ops : s.hostOps = (List.range' w m).map (lineWrite xs) ++ rest) :
    ∃ ib tr, Host.Core.run Sys2Proof.core m s = .next { s with ibuf := ib, hostOps := rest, turns := tr } ∧
      ∀ x, Memory.get ib x =
        if 4 * w ≤ x ∧ x < 4 * (w + m) ∧ x < s.wMax.toNat then some (sampleOrZero xs x)
        else Memory.get s.ibuf x := by
  induction m generalizing w s with
  | zero =>
    obtain rfl : s.hostOps = rest := ops
    refine ⟨s.ibuf, s.turns, rfl, fun x => ?_⟩
    rw [if_neg (by omega)]
  | succ m ih =>
    rw [List.range'_succ, List.map_cons, List.cons_append] at ops
    have first := step_lineWrite idle (by omega) ops
    obtain ⟨ib, tr, run, bytes⟩ := ih (w := w + 1) (s := { s with
      ibuf := writeWindow s.wMax.toNat (4 * w) (lineWord xs w) 0b1111#4 s.ibuf,
      hostOps := (List.range' (w + 1) m).map (lineWrite xs) ++ rest, turns := s.turns.tail }) idle (by omega) rfl
    refine ⟨ib, tr, (run_succ m first).trans run, fun x => ?_⟩
    dsimp only at bytes
    rw [bytes, get_writeWindow_lineWord]
    by_cases later : 4 * (w + 1) ≤ x ∧ x < 4 * (w + 1 + m) ∧ x < s.wMax.toNat
    · rw [if_pos later, if_pos (by omega)]
    · rw [if_neg later]
      by_cases here : 4 * w ≤ x ∧ x < 4 * w + 4 ∧ x < s.wMax.toNat
      · rw [if_pos here, if_pos (by omega)]
      · rw [if_neg here, if_neg (by omega)]

/-- Settles O58: LOADLINE is the transactions of words 0 to ceil(n/4) - 1. -/
theorem loadLineLoadsTheScanline : Obligations.LoadLineLoadsTheScanline := by
  unfold Obligations.LoadLineLoadsTheScanline
  intro s xs rest idle fits ops
  have short : 0 + (xs.length + 3) / 4 ≤ 0x4000 := by
    have := s.wMax.isLt
    omega
  have length : (loadLine xs).length = (xs.length + 3) / 4 := by simp [loadLine]
  rw [loadLine_eq] at ops
  obtain ⟨ib, tr, run, bytes⟩ := run_lineWrites xs rest ((xs.length + 3) / 4) idle short ops
  refine ⟨_, ib, length ▸ run, rfl, fun i => ?_⟩
  simp only [bytes, Nat.mul_zero, Nat.zero_le, Nat.zero_add, true_and]

end Sys2Proof.Machine
end
